-- ==== Sys2Proof/Word.lean ====
section
/-! DEFINITION. The value types of the block: the byte and the nibble (00_scope.md R9), and the 17-bit word of one
bus access (30_encoding.md R60). All values are unsigned bit patterns (00_scope.md R9). -/

namespace Sys2Proof

/-- An 8-bit value in `0..255` (00_scope.md R9): a register, a bus address or datum, a BYTE cell. -/
abbrev Byte := BitVec 8

/-- A 4-bit value in `0..15` (00_scope.md R9): one cell of the nibble buffer. -/
abbrev Nibble := BitVec 4

/-- One host bus access as the 17 bits `{WE, ADDR[7:0], DATA[7:0]}` (30_encoding.md R60). -/
abbrev BusWord := BitVec 17

end Sys2Proof
end

