-- ==== Sys2Proof/Config.lean ====
section
/-! DEFINITION. What an implementation fixes (the capacity `BMAX`, 00_scope.md R5), and the free values: what the
spec leaves unspecified, as constants with no body (93_implementation_defined.md U1, U2). -/

namespace Sys2Proof

/-- The parameters of one instance of the block. `bmax` is `BMAX`, the number of cells of the byte buffer
(00_scope.md R5). `LAT_CMD`, the only other parameter, is read by no rule (00_scope.md R7) and is left out (log 13). -/
structure Config where
  bmax : Nat
deriving DecidableEq, Repr

/-- The default instance: `BMAX = 16` (00_scope.md R5). -/
def Config.standard : Config := { bmax := 16 }

/-- `NMAX = 2 * BMAX`, the number of cells of the nibble buffer (00_scope.md R6). -/
def Config.nmax (c : Config) : Nat := 2 * c.bmax

/-- FREE VALUE (70_reset_and_hazards.md R142, 93 U2): the byte that the n-th read received while reset is asserted
returns. Log 6. -/
opaque Config.readInReset : Nat → Byte

/-- FREE VALUE (70_reset_and_hazards.md R141, 93 U1): an 8-bit element before the first reset, by its bus address.
Log 7. -/
opaque Config.powerOnByte : Nat → Byte

/-- FREE VALUE (70_reset_and_hazards.md R141, 93 U1): NIB[k] before the first reset. Log 7. -/
opaque Config.powerOnNibble : Nat → Nibble

/-- FREE VALUE (70_reset_and_hazards.md R141, 93 U1): DONE before the first reset. Log 7. -/
opaque Config.powerOnDone : Bool

/-- FREE VALUE (70_reset_and_hazards.md R141, 93 U1): the ECODE bits before the first reset. Log 7. -/
opaque Config.powerOnEcode : BitVec 2

end Sys2Proof
end

