-- ==== Sys2Proof/Machine/Memory.lean ====
section
/-! DEFINITION. The store that holds a buffer: a sparse list of (cell index, value) pairs in one canonical form, so
that equal buffers are equal data (log 10). With 8-bit cells a pair is a `Host.Cell`. -/

namespace Sys2Proof.Machine

/-- The cells of a buffer that differ from `Memory.unlisted`, by index; index 0 is the first cell (00_scope.md R11). -/
abbrev Memory (w : Nat) := List (Nat × BitVec w)

/-- What a cell that is not listed reads as: 0, the reset value of every cell (10_state.md R34). -/
def Memory.unlisted (w : Nat) : BitVec w := 0

/-- The buffer with every cell 0 (10_state.md R34). -/
def Memory.zeros {w : Nat} : Memory w := []

/-- The value of cell `a`. -/
def Memory.read {w : Nat} : Memory w → Nat → BitVec w
  | [], _ => Memory.unlisted w
  | c :: m, a => if c.1 = a then c.2 else Memory.read m a

/-- The buffer without an entry for cell `a`. -/
def Memory.erase {w : Nat} (m : Memory w) (a : Nat) : Memory w := m.filter fun c => c.1 ≠ a

/-- An entry for cell `a` put before the first entry of a higher cell. -/
def Memory.insert {w : Nat} (a : Nat) (v : BitVec w) : Memory w → Memory w
  | [] => [(a, v)]
  | c :: m => if a < c.1 then (a, v) :: c :: m else c :: Memory.insert a v m

/-- Cell `a` set to `v`; a cell set to what an unlisted cell reads as is not listed. -/
def Memory.write {w : Nat} (m : Memory w) (a : Nat) (v : BitVec w) : Memory w :=
  if v = Memory.unlisted w then m.erase a else Memory.insert a v (m.erase a)

/-- The buffer whose cells `0 .. n-1` hold `f 0 .. f (n-1)`, and no other. -/
def Memory.table {w : Nat} (n : Nat) (f : Nat → BitVec w) : Memory w :=
  ((List.range n).map fun k => (k, f k)).filter fun c => c.2 ≠ Memory.unlisted w

/-- The canonical form of a buffer of `cap` cells: indices strictly rising, every one below `cap`, no entry equal to
what an unlisted cell reads as. -/
abbrev Memory.wf {w : Nat} (cap : Nat) (m : Memory w) : Prop :=
  m.Pairwise (fun c d => c.1 < d.1) ∧ ∀ c ∈ m, c.1 < cap ∧ c.2 ≠ Memory.unlisted w

end Sys2Proof.Machine
end

