-- ==== Sys2Proof/Machine/State.lean ====
section
/-! DEFINITION. The state of the block (10_state.md R20), the reset state (10_state.md R34), and the reasons a step
could stop. -/

namespace Sys2Proof.Machine

/-- The four values of the 2-bit ECODE (10_state.md R28); `ECode.code` in Flags.lean gives their bits. -/
inductive ECode where
  /-- 0, NONE: the last command succeeded. -/
  | none
  /-- 1, INVALID_LENGTH: PACK with an odd LEN. -/
  | invalidLength
  /-- 2, LENGTH_RANGE: PACK with an even `LEN > NMAX`, or UNPACK with `LEN > BMAX`. -/
  | lengthRange
  /-- 3, ILLEGAL_CMD: a CMD byte with `RSV != 0`. -/
  | illegalCmd
deriving DecidableEq, Repr

/-- One thing the outside does to the block; these are the only steps (00_scope.md R13). -/
inductive HostEvent where
  /-- A host bus access, as its 17-bit BUS word (30_encoding.md R60). -/
  | access (w : BusWord)
  /-- The reset input is asserted: a step between accesses (70_reset_and_hazards.md R140, R142). -/
  | reset
  /-- An access received while reset is asserted: it is not performed (70_reset_and_hazards.md R142). -/
  | accessInReset (w : BusWord)
deriving DecidableEq, Repr

/-- The state. `cmd` to `nibBuf` are the spec's whole tuple (10_state.md R20: "No other state exists"); `cfg` is the
instance's parameters, which no step changes (log 5); `rdata`, `pending` and `draws` are the model's own (log 1, 3, 6). -/
structure State where
  /-- `BMAX` of this instance (00_scope.md R5); CAP reads it (10_state.md R30). -/
  cfg : Config
  /-- CMD, the last byte written to it (10_state.md R23). -/
  cmd : Byte
  /-- LEN, the element count of the next command's source (10_state.md R26). -/
  len : Byte
  /-- DONE, 1 once any command has been written since reset (10_state.md R27). -/
  done : Bool
  /-- ECODE, the outcome of the last command (10_state.md R27, R28). -/
  ecode : ECode
  /-- OLEN, the element count of the last command's result (10_state.md R29). -/
  olen : Byte
  /-- BYTE[0..BMAX), by cell index (10_state.md R24). -/
  byteBuf : Memory 8
  /-- NIB[0..NMAX), by cell index (10_state.md R25). -/
  nibBuf : Memory 4
  /-- The model's: the byte the last event returned to the host, if it returned one (40_register_access.md R80). -/
  rdata : Option Byte
  /-- The model's: what the outside does next, first to come first (20_memory.md R51, R52). -/
  pending : List HostEvent
  /-- The model's: how many free values have been drawn. -/
  draws : Nat
deriving DecidableEq, Repr

/-- Why the machine would stop with a fault. THERE IS NO REASON, and so no constructor: "A command that fails ends
normally as a bus write: it is not refused by the bus, raises no bus error" (60_exceptions.md R120), the block "has no
trap mechanism" (60_exceptions.md R124), and every access is legal (30_encoding.md R69). Log 12. -/
inductive Fault where
deriving DecidableEq, Repr

/-- Why the machine would refuse an instruction. -/
inductive Refusal where
  /-- Raised only by an arm of `exec` whose instruction has no meaning yet; no arm raises it now. Safe: the model stops
  where the hardware goes on. -/
  | notModelled (mnemonic : String)
deriving DecidableEq, Repr

/-- An instance with parameters `c` right after reset: every element as 10_state.md R34 gives it. The model's own
fields start as log 18 says: nothing returned, nothing presented, nothing drawn. -/
def State.resetOf (c : Config) : State where
  cfg := c
  cmd := 0x00
  len := 0x00
  done := false
  ecode := .none
  olen := 0x00
  byteBuf := Memory.zeros
  nibBuf := Memory.zeros
  rdata := Option.none
  pending := []
  draws := 0

/-- The default instance right after reset (10_state.md R34, 00_scope.md R5). -/
def State.reset : State := State.resetOf Config.standard

end Sys2Proof.Machine
end

