-- ==== Sys2Proof/Machine/Flags.lean ====
section
/-! DEFINITION. The flags: the codes of ECODE (10_state.md R28), ERR and the STATUS view (10_state.md R27). -/

namespace Sys2Proof.Machine

/-- The 2-bit code of an outcome (10_state.md R28). -/
def ECode.code : ECode → BitVec 2
  | .none => 0
  | .invalidLength => 1
  | .lengthRange => 2
  | .illegalCmd => 3

/-- The outcome with a 2-bit code (10_state.md R28); every code is named. -/
def ECode.ofCode (c : BitVec 2) : ECode :=
  if c = 0 then .none else if c = 1 then .invalidLength else if c = 2 then .lengthRange else .illegalCmd

/-- ERR, "`1` iff `ECODE != 0`; not separately stored" (10_state.md R27). -/
def State.err (s : State) : Bool := s.ecode.code ≠ 0

/-- `STATUS = {0b0000, ECODE, ERR, DONE}` (10_state.md R27). -/
def State.status (s : State) : Byte :=
  (0b0000#4 ++ s.ecode.code ++ BitVec.ofBool s.err ++ BitVec.ofBool s.done : BitVec (4 + 2 + 1 + 1))

end Sys2Proof.Machine
end

