-- ==== Sys2Proof/Syntax.lean ====
section
/-! DEFINITION. The instructions: one constructor per row of spec/opcode_table.json. -/

namespace Sys2Proof

/-- What a host can ask of the block: the two accesses of the BUS format and the four commands of the CMD8 format
(30_encoding.md R60, R67). A command's `zs` is its bit 2; NOP and CLEAR ignore it (30_encoding.md R63), but the CMD
register keeps the byte written (10_state.md R23), so it is an operand of theirs too. -/
inductive Instr where
  /-- RD: host read of the byte at bus address `addr` (40_register_access.md R80). -/
  | rd (addr : Byte)
  /-- WR: host write of `data` to bus address `addr` (40_register_access.md R81). -/
  | wr (addr data : Byte)
  /-- NOP: report success (42_control_commands.md R110). -/
  | nop (zs : Bool)
  /-- PACK: `LEN` nibbles of NIB into `LEN / 2` bytes of BYTE (41_nibble_packing.md R92). -/
  | pack (zs : Bool)
  /-- UNPACK: `LEN` bytes of BYTE into `2 * LEN` nibbles of NIB (41_nibble_packing.md R93). -/
  | unpack (zs : Bool)
  /-- CLEAR: zeroise both buffers and the counts (42_control_commands.md R111). -/
  | clear (zs : Bool)
deriving DecidableEq, Repr

end Sys2Proof
end

