-- ==== Sys2Proof/WellFormed.lean ====
section
/-! DEFINITION. Which configurations and instructions are well formed. -/

namespace Sys2Proof

/-- `BMAX` is "an integer with `1 <= BMAX <= 64`" (00_scope.md R5). -/
abbrev Config.wf (c : Config) : Prop := 1 ≤ c.bmax ∧ c.bmax ≤ 64

/-- Every instruction is well formed: "Bus accesses have no illegal encodings" (30_encoding.md R69), a command has no
operand but its ZS bit (30_encoding.md R64), and the operand types admit exactly the values the fields can hold. The
check is kept, one arm per constructor, so that a new instruction has to answer it. -/
def Instr.wellFormed : Instr → Bool
  | .rd _ => true
  | .wr _ _ => true
  | .nop _ => true
  | .pack _ => true
  | .unpack _ => true
  | .clear _ => true

end Sys2Proof
end

