-- ==== Sys2Proof/Decode.lean ====
section
/-! DEFINITION. Decoding of BUS words and CMD8 bytes (30_encoding.md R60-R69), total and rejecting by name, and the
encoder written from the same tables. -/

namespace Sys2Proof

/-- The two formats (30_encoding.md R60). -/
inductive Format where
  /-- One bus access, 17 bits. -/
  | bus
  /-- One command byte, 8 bits. -/
  | cmd8
deriving DecidableEq, Repr

/-- Why a number is not an instruction of a format. -/
inductive Reject where
  /-- The number has bits above bit 16: it is no BUS word (30_encoding.md R60). -/
  | busTooWide
  /-- The number has bits above bit 7: it is no command byte (30_encoding.md R60). -/
  | cmdTooWide
  /-- The command byte has `RSV != 0` (30_encoding.md R66). -/
  | illegalCmd (c : Byte)
deriving DecidableEq, Repr

/-- A legal command byte, decoded (30_encoding.md R62, R67). -/
inductive Command where
  | nop (zs : Bool)
  | pack (zs : Bool)
  | unpack (zs : Bool)
  | clear (zs : Bool)
deriving DecidableEq, Repr

/-- The bus address of CMD (20_memory.md R42). -/
def cmdAddr : Byte := 0x00
/-- The bus address of LEN (20_memory.md R42). -/
def lenAddr : Byte := 0x01
/-- The bus address of STATUS (20_memory.md R42). -/
def statusAddr : Byte := 0x02
/-- The bus address of OLEN (20_memory.md R42). -/
def olenAddr : Byte := 0x03
/-- The bus address of CAP (20_memory.md R42). -/
def capAddr : Byte := 0x04
/-- The base of the byte window (20_memory.md R42). -/
def byteBase : Nat := 0x40
/-- The base of the nibble window (20_memory.md R42). -/
def nibBase : Nat := 0x80
/-- The bus address of BYTE[j], `j < 64` (20_memory.md R42). -/
def byteAddr (j : Nat) : Byte := BitVec.ofNat 8 (byteBase + j)
/-- The bus address of NIB[k], `k < 128` (20_memory.md R42). -/
def nibAddr (k : Nat) : Byte := BitVec.ofNat 8 (nibBase + k)

/-! ### Fields (30_encoding.md R60, R61) -/

/-- `WE = BUS[16]`. -/
def busWe (w : BusWord) : Bool := w.getLsbD 16
/-- `ADDR = BUS[15:8]`. -/
def busAddr (w : BusWord) : Byte := w.extractLsb' 8 8
/-- `DATA = BUS[7:0]`. -/
def busData (w : BusWord) : Byte := w.extractLsb' 0 8
/-- `OP = CMD[1:0]`. -/
def cmdOp (c : Byte) : BitVec 2 := c.extractLsb' 0 2
/-- `ZS = CMD[2]`. -/
def cmdZs (c : Byte) : Bool := c.getLsbD 2
/-- `RSV = CMD[7:3]`. -/
def cmdRsv (c : Byte) : BitVec 5 := c.extractLsb' 3 5

/-! ### Decoding -/

/-- A BUS word is a read or a write; every word is legal (30_encoding.md R60, R69). The DATA bits of a read are driven
by the block and are no part of the request (log 9). -/
def decodeBus (w : BusWord) : Instr :=
  if busWe w then .wr (busAddr w) (busData w) else .rd (busAddr w)

/-- A command byte, in the order of 30_encoding.md R66: the reserved bits first, then OP. -/
def decodeCommand (c : Byte) : Except Reject Command :=
  if cmdRsv c ≠ 0 then .error (.illegalCmd c)
  else if cmdOp c = 0b00 then .ok (.nop (cmdZs c))
  else if cmdOp c = 0b01 then .ok (.pack (cmdZs c))
  else if cmdOp c = 0b10 then .ok (.unpack (cmdZs c))
  else .ok (.clear (cmdZs c))

/-- The instruction a command is. -/
def Command.instr : Command → Instr
  | .nop zs => .nop zs
  | .pack zs => .pack zs
  | .unpack zs => .unpack zs
  | .clear zs => .clear zs

/-- The instruction that the number `w` is in format `f`, or why it is none. -/
def decode (f : Format) (w : Nat) : Except Reject Instr :=
  match f with
  | .bus => if w < 2 ^ 17 then .ok (decodeBus (BitVec.ofNat 17 w)) else .error .busTooWide
  | .cmd8 => if w < 2 ^ 8 then (decodeCommand (BitVec.ofNat 8 w)).map Command.instr else .error .cmdTooWide

/-- The decoder on an instruction numbered as spec/opcode_table.json numbers it: 8 bits are a CMD8 byte, 17 bits (24 in
whole bytes) a BUS word; no row has another width. -/
def decodeTableWord (nbits w : Nat) : Option Instr :=
  if nbits = 8 then (decode .cmd8 w).toOption
  else if 17 ≤ nbits ∧ nbits ≤ 24 then (decode .bus w).toOption
  else none

/-! ### Encoding -/

/-- A command byte is assembled as `c = (ZS << 2) | OP`, with `RSV = 0` (30_encoding.md R72). -/
def assembleCommand (zs : Bool) (op : BitVec 2) : Byte :=
  ((BitVec.ofBool zs).setWidth 8 <<< 2) ||| op.setWidth 8

/-- The command byte of a command (30_encoding.md R62, R67). -/
def encodeCommand : Command → Byte
  | .nop zs => assembleCommand zs 0b00
  | .pack zs => assembleCommand zs 0b01
  | .unpack zs => assembleCommand zs 0b10
  | .clear zs => assembleCommand zs 0b11

/-- The BUS word `{WE, ADDR, DATA}` (30_encoding.md R60). -/
def assembleBus (we : BitVec 1) (addr data : Byte) : BusWord := (we ++ addr ++ data : BitVec (1 + 8 + 8))

/-- The format and the number of an instruction; the DATA bits of a read request are written 0 (log 9). -/
def encode : Instr → Format × Nat
  | .rd a => (.bus, (assembleBus 0 a 0).toNat)
  | .wr a d => (.bus, (assembleBus 1 a d).toNat)
  | .nop zs => (.cmd8, (encodeCommand (.nop zs)).toNat)
  | .pack zs => (.cmd8, (encodeCommand (.pack zs)).toNat)
  | .unpack zs => (.cmd8, (encodeCommand (.unpack zs)).toNat)
  | .clear zs => (.cmd8, (encodeCommand (.clear zs)).toNat)

/-- The bus access that carries a command byte: a write of it to CMD (30_encoding.md R60: CMD8 is "the 8-bit value
written by a `BusWrite` to address `0x00`"). -/
def cmdAccess (c : Byte) : BusWord := assembleBus 1 cmdAddr c

/-- The bus access by which a host has an instruction performed: RD and WR are accesses themselves, a command is a
write of its byte to CMD (30_encoding.md R60). Log 8. -/
def busWord : Instr → BusWord
  | .rd a => assembleBus 0 a 0
  | .wr a d => assembleBus 1 a d
  | .nop zs => cmdAccess (encodeCommand (.nop zs))
  | .pack zs => cmdAccess (encodeCommand (.pack zs))
  | .unpack zs => cmdAccess (encodeCommand (.unpack zs))
  | .clear zs => cmdAccess (encodeCommand (.clear zs))

end Sys2Proof
end

