-- ==== Sys2Proof/Machine/Nibbles.lean ====
section
/-! DEFINITION. The conversion itself, apart from the buffers: nibble order within a byte (20_memory.md R44) and the
pure functions `pack` and `unpack` on sequences (41_nibble_packing.md R92, R93). -/

namespace Sys2Proof.Machine

/-- `zext_8(n)`, the byte `{0b0000, n}` (00_scope.md R9). -/
def zext8 (n : Nibble) : Byte := n.setWidth 8

/-- `(zext_8(h) << 4) | zext_8(l)` (41_nibble_packing.md R92). -/
def packByte (h l : Nibble) : Byte := (zext8 h <<< 4) ||| zext8 l

/-- The high nibble of a byte, `b[7:4]` (41_nibble_packing.md R93). -/
def highNibble (b : Byte) : Nibble := b.extractLsb' 4 4

/-- The low nibble of a byte, `b[3:0]` (41_nibble_packing.md R93). -/
def lowNibble (b : Byte) : Nibble := b.extractLsb' 0 4

/-- `pack` as a pure function of a nibble sequence; `none` is GFTC's InvalidLength, an odd length
(41_nibble_packing.md R91, R92). -/
def packSeq : List Nibble → Option (List Byte)
  | [] => some []
  | [_] => none
  | h :: l :: rest => (packSeq rest).map (packByte h l :: ·)

/-- `unpack` as a pure function of a byte sequence, high nibble first (41_nibble_packing.md R93). -/
def unpackSeq : List Byte → List Nibble
  | [] => []
  | b :: rest => highNibble b :: lowNibble b :: unpackSeq rest

end Sys2Proof.Machine
end

