-- ==== Sys2Proof/Machine/Operands.lean ====
section
/-! DEFINITION. The address map (20_memory.md R42) and the cells and counts that commands read. -/

namespace Sys2Proof.Machine

/-- What a bus address selects (20_memory.md R42). -/
inductive Target where
  | cmd
  | len
  | status
  | olen
  | cap
  /-- BYTE[j]. -/
  | byte (j : Nat)
  /-- NIB[k]. -/
  | nib (k : Nat)
  /-- A reserved address or an unimplemented cell: RAZ/WI (20_memory.md R43). -/
  | reserved
deriving DecidableEq, Repr

/-- `REG(a)`, the address map of 20_memory.md R42 for the instance `c`. -/
def regAt (c : Config) (a : Byte) : Target :=
  if a = cmdAddr then .cmd
  else if a = lenAddr then .len
  else if a = statusAddr then .status
  else if a = olenAddr then .olen
  else if a = capAddr then .cap
  else if byteBase ≤ a.toNat ∧ a.toNat < byteBase + c.bmax then .byte (a.toNat - byteBase)
  else if nibBase ≤ a.toNat ∧ a.toNat < nibBase + c.nmax then .nib (a.toNat - nibBase)
  else .reserved

/-- BYTE[j] (10_state.md R24). -/
def State.byteCell (s : State) (j : Nat) : Byte := s.byteBuf.read j

/-- NIB[k] (10_state.md R25). -/
def State.nibCell (s : State) (k : Nat) : Nibble := s.nibBuf.read k

/-- The whole byte buffer as a sequence of `BMAX` bytes, cell 0 first (00_scope.md R11). -/
def State.bytes (s : State) : List Byte := (List.range s.cfg.bmax).map s.byteCell

/-- The whole nibble buffer as a sequence of `NMAX` nibbles, cell 0 first (00_scope.md R11). -/
def State.nibs (s : State) : List Nibble := (List.range s.cfg.nmax).map s.nibCell

/-- The source count `n = LEN`, unsigned (30_encoding.md R64). -/
def State.count (s : State) : Nat := s.len.toNat

end Sys2Proof.Machine
end

