-- ==== Sys2Proof/Machine/Ops.lean ====
section
/-! DEFINITION. The shared operations: named updates of the state, the two ways a command ends, the bodies of the four
commands (41_nibble_packing.md R90-R95, 42_control_commands.md R110, R111), the read and write of one bus address
(40_register_access.md R80, R81), reset (70_reset_and_hazards.md R140-R142) and the delivery of the next event. The
block has no trap and no return from one (60_exceptions.md R124, R126): `State.fail` is its whole error mechanism. -/

namespace Sys2Proof.Machine

/-! ### Named updates -/

/-- A byte stored in CMD by a command write, and `DONE <- 1` (10_state.md R23, 41_nibble_packing.md R90). -/
def State.issue (c : Byte) (s : State) : State := { s with cmd := c, done := true }

/-- `fail E`: `ECODE <- E`, `OLEN <- 0`, no other state changes (41_nibble_packing.md R91). -/
def State.fail (e : ECode) (s : State) : State := { s with ecode := e, olen := 0x00 }

/-- The end of a conversion that succeeded: `OLEN` is its result's count, `ECODE <- NONE` (41_nibble_packing.md R92,
R93). -/
def State.succeed (n : Nat) (s : State) : State := { s with ecode := .none, olen := BitVec.ofNat 8 n }

/-- `LEN <- d` (40_register_access.md R84). -/
def State.setLen (d : Byte) (s : State) : State := { s with len := d }

/-- The byte buffer replaced. -/
def State.setBytes (m : Memory 8) (s : State) : State := { s with byteBuf := m }

/-- The nibble buffer replaced. -/
def State.setNibs (m : Memory 4) (s : State) : State := { s with nibBuf := m }

/-- The access is complete: `r` is what the host gets back, and the access leaves the port. Nothing of the block's own
state changes (log 1, 3). -/
def State.complete (r : Option Byte) (s : State) : State := { s with rdata := r, pending := s.pending.tail }

/-- One free value has been drawn (log 6). -/
def State.drawn (s : State) : State := { s with draws := s.draws + 1 }

/-! ### Commands -/

/-- The body of NOP: `ECODE <- NONE`, nothing else (42_control_commands.md R110). -/
def State.nopBody (s : State) : State := { s with ecode := .none }

/-- The body of CLEAR: both buffers, LEN and OLEN to 0, `ECODE <- NONE` (42_control_commands.md R111). -/
def State.clearBody (s : State) : State :=
  (((s.setBytes Memory.zeros).setNibs Memory.zeros).setLen 0x00).succeed 0

/-- What PACK leaves in BYTE[j]: byte `j` of the result, or the fill `0x00` after it (41_nibble_packing.md R92, R95). -/
def State.packedByte (s : State) (j : Nat) : Byte :=
  if j < s.count / 2 then packByte (s.nibCell (2 * j)) (s.nibCell (2 * j + 1)) else 0x00

/-- The body of PACK: the checks in the order of 41_nibble_packing.md R91, then R92 with the destination fill of R95
and the zeroisation of R94. Every read of NIB is of the state before the command. -/
def State.packBody (zs : Bool) (s : State) : State :=
  if s.count % 2 = 1 then s.fail .invalidLength
  else if s.count > s.cfg.nmax then s.fail .lengthRange
  else
    ((s.setBytes (Memory.table s.cfg.bmax s.packedByte)).setNibs
      (if zs then Memory.zeros else s.nibBuf)).succeed (s.count / 2)

/-- What UNPACK leaves in NIB[k]: the high half of byte `k / 2` for an even `k`, the low half for an odd one, or the
fill 0 after the result (41_nibble_packing.md R93, R95). -/
def State.unpackedNibble (s : State) (k : Nat) : Nibble :=
  if k < 2 * s.count then
    if k % 2 = 0 then highNibble (s.byteCell (k / 2)) else lowNibble (s.byteCell (k / 2))
  else 0

/-- The body of UNPACK: the check of 41_nibble_packing.md R91, then R93 with the destination fill of R95 and the
zeroisation of R94. Every read of BYTE is of the state before the command. -/
def State.unpackBody (zs : Bool) (s : State) : State :=
  if s.count > s.cfg.bmax then s.fail .lengthRange
  else
    ((s.setNibs (Memory.table s.cfg.nmax s.unpackedNibble)).setBytes
      (if zs then Memory.zeros else s.byteBuf)).succeed (2 * s.count)

/-- The body of a decoded command (41_nibble_packing.md R90). -/
def State.perform (k : Command) (s : State) : State :=
  match k with
  | .nop _ => s.nopBody
  | .pack zs => s.packBody zs
  | .unpack zs => s.unpackBody zs
  | .clear _ => s.clearBody

/-- A write of `c` to CMD: `CMD <- c`, then `Execute(c)` in the same step (41_nibble_packing.md R90). -/
def State.writeCmd (c : Byte) (s : State) : State :=
  match decodeCommand c with
  | .ok k => (s.issue c).perform k
  | .error _ => (s.issue c).fail .illegalCmd

/-! ### One bus address -/

/-- `BusRead(a)`: the byte returned; no state changes (40_register_access.md R80). -/
def State.busRead (s : State) (a : Byte) : Byte :=
  match regAt s.cfg a with
  | .cmd => s.cmd
  | .len => s.len
  | .status => s.status
  | .olen => s.olen
  | .cap => BitVec.ofNat 8 s.cfg.bmax
  | .byte j => s.byteCell j
  | .nib k => zext8 (s.nibCell k)
  | .reserved => 0x00

/-- `BusWrite(a, d)`: the state after (40_register_access.md R81). -/
def State.busWrite (a d : Byte) (s : State) : State :=
  match regAt s.cfg a with
  | .cmd => s.writeCmd d
  | .len => s.setLen d
  | .status => s
  | .olen => s
  | .cap => s
  | .byte j => s.setBytes (s.byteBuf.write j d)
  | .nib k => s.setNibs (s.nibBuf.write k (lowNibble d))
  | .reserved => s

/-! ### Events that are not accesses -/

/-- Reset: every element as 10_state.md R34 gives it, whatever it was (70_reset_and_hazards.md R140). The
configuration is no state and stays; what the outside does next, and the count of draws, are the model's. -/
def State.afterReset (s : State) : State :=
  { State.resetOf s.cfg with pending := s.pending.tail, draws := s.draws }

/-- An access received while reset is asserted is not performed: "a write has no effect, a read returns an unspecified
value" (70_reset_and_hazards.md R142). Log 6. -/
def State.ignoreAccess (w : BusWord) (s : State) : State :=
  match decodeBus w with
  | .rd _ => (s.complete (some (Config.readInReset s.draws))).drawn
  | _ => s.complete Option.none

/-- The state before the first reset: every element a free value of its width (70_reset_and_hazards.md R141, 93 U1). -/
def State.powerOn (c : Config) : State :=
  { State.resetOf c with
    cmd := Config.powerOnByte cmdAddr.toNat
    len := Config.powerOnByte lenAddr.toNat
    done := Config.powerOnDone
    ecode := ECode.ofCode Config.powerOnEcode
    olen := Config.powerOnByte olenAddr.toNat
    byteBuf := Memory.table c.bmax fun j => Config.powerOnByte (byteBase + j)
    nibBuf := Memory.table c.nmax Config.powerOnNibble }

/-- What the outside does next, if anything: the place where an instruction is fetched from (log 4). -/
def State.nextEvent (s : State) : Option HostEvent := s.pending.head?

/-- The access that the host presents for an instruction numbered as spec/opcode_table.json numbers it: a command byte
travels as the data of a write to CMD, a BUS word as it stands (30_encoding.md R60). -/
def fetchWord (nbits w : Nat) : BusWord :=
  if nbits = 8 then cmdAccess (BitVec.ofNat 8 w) else BitVec.ofNat 17 w

end Sys2Proof.Machine
end

