-- ==== Sys2Proof/Machine/Control.lean ====
section
/-! DEFINITION. The control commands: NOP and CLEAR (42_control_commands.md R110, R111). Each is the write of its byte
to CMD that issues it (41_nibble_packing.md R90). -/

namespace Sys2Proof.Machine

/-- NOP, bytes `0x00` and `0x04`; ZS is ignored (42_control_commands.md R110). -/
def execNop (zs : Bool) (s : State) : Host.Outcome State Fault Refusal :=
  .next (((s.issue (encodeCommand (.nop zs))).nopBody).complete none)

/-- CLEAR, bytes `0x03` and `0x07`; ZS is ignored (42_control_commands.md R111). -/
def execClear (zs : Bool) (s : State) : Host.Outcome State Fault Refusal :=
  .next (((s.issue (encodeCommand (.clear zs))).clearBody).complete none)

end Sys2Proof.Machine
end

