-- ==== Sys2Proof/Machine/Packing.lean ====
section
/-! DEFINITION. The conversion commands: PACK and UNPACK (41_nibble_packing.md R92, R93). Each is the write of its byte
to CMD that issues it (41_nibble_packing.md R90). -/

namespace Sys2Proof.Machine

/-- PACK and PACK.ZS, bytes `0x01` and `0x05` (41_nibble_packing.md R90, R92). -/
def execPack (zs : Bool) (s : State) : Host.Outcome State Fault Refusal :=
  .next (((s.issue (encodeCommand (.pack zs))).packBody zs).complete none)

/-- UNPACK and UNPACK.ZS, bytes `0x02` and `0x06` (41_nibble_packing.md R90, R93). -/
def execUnpack (zs : Bool) (s : State) : Host.Outcome State Fault Refusal :=
  .next (((s.issue (encodeCommand (.unpack zs))).unpackBody zs).complete none)

end Sys2Proof.Machine
end

