-- ==== Sys2Proof/Machine/RegisterAccess.lean ====
section
/-! DEFINITION. The BUS family: RD and WR (40_register_access.md R80-R86). -/

namespace Sys2Proof.Machine

/-- RD: the byte at `a` goes back to the host; nothing else changes (40_register_access.md R80). -/
def execRd (a : Byte) (s : State) : Host.Outcome State Fault Refusal :=
  .next (s.complete (some (s.busRead a)))

/-- WR: the byte `d` is written at `a`; a write to CMD performs its command in the same step
(40_register_access.md R81). -/
def execWr (a d : Byte) (s : State) : Host.Outcome State Fault Refusal :=
  .next ((s.busWrite a d).complete none)

end Sys2Proof.Machine
end

