-- ==== Sys2Proof/Machine/Dispatch.lean ====
section
/-! DEFINITION. Every instruction sent to its meaning. -/

namespace Sys2Proof.Machine

def exec (i : Instr) (s : State) : Host.Outcome State Fault Refusal :=
  match i with
  | .rd a => Sys2Proof.Machine.execRd a s
  | .wr a d => Sys2Proof.Machine.execWr a d s
  | .nop zs => Sys2Proof.Machine.execNop zs s
  | .pack zs => Sys2Proof.Machine.execPack zs s
  | .unpack zs => Sys2Proof.Machine.execUnpack zs s
  | .clear zs => Sys2Proof.Machine.execClear zs s

end Sys2Proof.Machine
end

