-- ==== Sys2Proof/Machine/Step.lean ====
section
/-! DEFINITION. One step of the model: one complete bus access, or a reset (00_scope.md R7, R13). -/

namespace Sys2Proof.Machine

/-- One step: the next event is taken. An access is decoded and performed; with no event the block holds its state
(60_exceptions.md R137; log 2). -/
def step (s : State) : Host.Outcome State Fault Refusal :=
  match s.nextEvent with
  | some (.access w) => exec (decodeBus w) s
  | some .reset => .next s.afterReset
  | some (.accessInReset w) => .next (s.ignoreAccess w)
  | none => .next s

/-- `s` with the access for one instruction put first among what the host presents (log 4). -/
def State.withFetchWord (s : State) (nbits w : Nat) : State :=
  { s with pending := .access (fetchWord nbits w) :: s.pending }

end Sys2Proof.Machine
end

