-- ==== Sys2Proof/Machine/Script.lean ====
section
/-! DEFINITION. Host scripts: the lines and pseudo-operations in which the spec writes host programs
(30_encoding.md R70, R71), as data, with their accesses. -/

namespace Sys2Proof.Machine

/-- An `<addr>` of a script line (30_encoding.md R70). -/
inductive Place where
  | cmd
  | len
  | status
  | olen
  | cap
  /-- `BYTE[j]`. -/
  | byte (j : Nat)
  /-- `NIB[k]`. -/
  | nib (k : Nat)
  /-- A plain number. -/
  | number (a : Byte)
deriving DecidableEq, Repr

/-- The address an `<addr>` stands for (30_encoding.md R70, R71; 20_memory.md R42). -/
def Place.addr : Place → Byte
  | .cmd => cmdAddr
  | .len => lenAddr
  | .status => statusAddr
  | .olen => olenAddr
  | .cap => capAddr
  | .byte j => byteAddr j
  | .nib k => nibAddr k
  | .number a => a

/-- One access line of a script (30_encoding.md R70). -/
inductive ScriptLine where
  | wr (p : Place) (d : Byte)
  | rd (p : Place)
deriving DecidableEq, Repr

/-- The access a line is (30_encoding.md R70). -/
def ScriptLine.instr : ScriptLine → Instr
  | .wr p d => .wr p.addr d
  | .rd p => .rd p.addr

/-- A pseudo-operation (30_encoding.md R71). -/
inductive Pseudo where
  | nop
  | pack (n : Byte)
  | packZs (n : Byte)
  | unpack (n : Byte)
  | unpackZs (n : Byte)
  | clear
  /-- `LOADN k, v0, v1, ...`. -/
  | loadN (k : Nat) (vs : List Byte)
  /-- `LOADB j, b0, b1, ...`. -/
  | loadB (j : Nat) (bs : List Byte)
  /-- `READB j, m`. -/
  | readB (j m : Nat)
  /-- `READN k, m`. -/
  | readN (k m : Nat)
deriving DecidableEq, Repr

/-- One write line per value, the first to `place i`, the next to `place (i + 1)`, and so on. -/
def loadLines (place : Nat → Place) : Nat → List Byte → List ScriptLine
  | _, [] => []
  | i, v :: vs => .wr (place i) v :: loadLines place (i + 1) vs

/-- `m` read lines, the first of `place i`, the next of `place (i + 1)`, and so on. -/
def readLines (place : Nat → Place) : Nat → Nat → List ScriptLine
  | _, 0 => []
  | i, m + 1 => .rd (place i) :: readLines place (i + 1) m

/-- The exact expansion of a pseudo-operation (30_encoding.md R71). -/
def Pseudo.expand : Pseudo → List ScriptLine
  | .nop => [.wr .cmd 0x00]
  | .pack n => [.wr .len n, .wr .cmd 0x01]
  | .packZs n => [.wr .len n, .wr .cmd 0x05]
  | .unpack n => [.wr .len n, .wr .cmd 0x02]
  | .unpackZs n => [.wr .len n, .wr .cmd 0x06]
  | .clear => [.wr .cmd 0x03]
  | .loadN k vs => loadLines .nib k vs
  | .loadB j bs => loadLines .byte j bs
  | .readB j m => readLines .byte j m
  | .readN k m => readLines .nib k m

/-- The cells a pseudo-operation names exist in the instance `c` (20_memory.md R42), and it names at least one. -/
def Pseudo.wellFormed (c : Config) : Pseudo → Bool
  | .nop => true
  | .pack _ => true
  | .packZs _ => true
  | .unpack _ => true
  | .unpackZs _ => true
  | .clear => true
  | .loadN k vs => decide (vs ≠ [] ∧ k + vs.length ≤ c.nmax)
  | .loadB j bs => decide (bs ≠ [] ∧ j + bs.length ≤ c.bmax)
  | .readB j m => decide (1 ≤ m ∧ j + m ≤ c.bmax)
  | .readN k m => decide (1 ≤ m ∧ k + m ≤ c.nmax)

/-- The accesses a host presents for a script, in order (30_encoding.md R70, R71). -/
def presented (ls : List ScriptLine) : List HostEvent := ls.map fun l => .access (busWord l.instr)

/-- A hexadecimal digit (00_scope.md R8). -/
def hexDigit (n : Nibble) : Char :=
  ['0', '1', '2', '3', '4', '5', '6', '7', '8', '9', 'A', 'B', 'C', 'D', 'E', 'F'].getD n.toNat '0'

/-- A byte "as two hexadecimal digits, the high nibble first" (00_scope.md R8). -/
def hexByte (b : Byte) : List Char := [hexDigit (highNibble b), hexDigit (lowNibble b)]

/-- The BUS word of a line as the spec writes it, `W:<addr>:<data>` or `R:<addr>` (30_encoding.md R70). -/
def ScriptLine.text : ScriptLine → List Char
  | .wr p d => ['W', ':'] ++ hexByte p.addr ++ [':'] ++ hexByte d
  | .rd p => ['R', ':'] ++ hexByte p.addr

end Sys2Proof.Machine
end

