-- ==== Sys2Proof/Safety.lean ====
section
/-! DEFINITION. What a state that a run can reach looks like, in the terms the statements use. -/

namespace Sys2Proof.Machine

/-- The instance is legal (00_scope.md R5) and each buffer is in canonical form over exactly the cells it has
(10_state.md R24, R25). -/
abbrev State.shaped (s : State) : Prop :=
  s.cfg.wf ∧ s.byteBuf.wf s.cfg.bmax ∧ s.nibBuf.wf s.cfg.nmax

/-- CMD, DONE, ECODE and OLEN agree with each other as the rules of the command writes make them: before the first
command they are as reset leaves them (10_state.md R27, R34); an error leaves `OLEN = 0` (41_nibble_packing.md R91);
OLEN is at most `2 * BMAX` (41_nibble_packing.md R99); ECODE is ILLEGAL_CMD exactly when CMD holds an illegal byte
(30_encoding.md R68), INVALID_LENGTH only if it holds a PACK byte (60_exceptions.md R121), LENGTH_RANGE only if it
holds a PACK or an UNPACK byte (60_exceptions.md R122). -/
abbrev State.coherent (s : State) : Prop :=
  (s.done = false → s.cmd = 0x00 ∧ s.ecode = .none ∧ s.olen = 0x00) ∧
  (s.ecode ≠ .none → s.olen = 0x00) ∧
  s.olen.toNat ≤ 2 * s.cfg.bmax ∧
  (s.ecode = .illegalCmd ↔ cmdRsv s.cmd ≠ 0) ∧
  (s.ecode = .invalidLength → cmdOp s.cmd = 0b01) ∧
  (s.ecode = .lengthRange → cmdOp s.cmd = 0b01 ∨ cmdOp s.cmd = 0b10)

/-- The invariant of the block. -/
abbrev State.Inv (s : State) : Prop := s.shaped ∧ s.coherent

/-- Two states hold the same registers and buffers, that is, the same tuple of 10_state.md R20, in the same instance:
all a host can tell apart by later accesses. -/
abbrev State.sameBlock (s t : State) : Prop :=
  t.cfg = s.cfg ∧ t.cmd = s.cmd ∧ t.len = s.len ∧ t.done = s.done ∧ t.ecode = s.ecode ∧ t.olen = s.olen ∧
    t.byteBuf = s.byteBuf ∧ t.nibBuf = s.nibBuf

/-- `n` steps one after another, stopping at the first that does not answer a next state. -/
def runSteps : Nat → State → Host.Outcome State Fault Refusal
  | 0, s => .next s
  | n + 1, s =>
    match step s with
    | .next t => runSteps n t
    | .fault r => .fault r
    | .refused r => .refused r

end Sys2Proof.Machine
end

