-- ==== Sys2Proof/Certificates/Slice0/Obligations.lean ====
section
/-! DEFINITION. The statements for the provers. In a next state `{ s with … }` written out, every field not named is
unchanged: that is the statement's frame. `rdata := none` (nothing returned to the host) and
`pending := s.pending.tail` (the access leaves the port) are the model's own fields (log 1, 3). -/

open Sys2Proof Sys2Proof.Machine

/-! ### Encoding (30_encoding.md) -/

/-- Decoding what the encoder writes gives the instruction back, for every instruction and operand
(30_encoding.md sections 1 to 3). -/
def Obligations.DecodeOfEncodeIsTheInstruction : Prop :=
  ∀ i : Instr, decode (encode i).1 (encode i).2 = .ok i

/-- The complete opcode map of 30_encoding.md R67, and no other legal byte. That the encoder assembles the same bytes,
`4 * ZS + OP`, is the spec's own derivation ("A command byte is assembled as `c = (ZS << 2) | OP`"). -/
def Obligations.CommandBytesAreTheOpcodeMap : Prop :=
  (∀ zs : Bool,
    decodeCommand (if zs then 0x04 else 0x00) = .ok (.nop zs) ∧
    decodeCommand (if zs then 0x05 else 0x01) = .ok (.pack zs) ∧
    decodeCommand (if zs then 0x06 else 0x02) = .ok (.unpack zs) ∧
    decodeCommand (if zs then 0x07 else 0x03) = .ok (.clear zs) ∧
    (encodeCommand (.nop zs)).toNat = 4 * zs.toNat + 0 ∧
    (encodeCommand (.pack zs)).toNat = 4 * zs.toNat + 1 ∧
    (encodeCommand (.unpack zs)).toNat = 4 * zs.toNat + 2 ∧
    (encodeCommand (.clear zs)).toNat = 4 * zs.toNat + 3) ∧
  ∀ c : Byte, 0x08 ≤ c.toNat → decodeCommand c = .error (.illegalCmd c)

/-- Every BUS word is a legal access: WE chooses the kind, and encoding the access again gives back every bit of a
write and WE and ADDR of a read, whose DATA bits are the block's answer (30_encoding.md section 1; log 9). -/
def Obligations.EveryBusWordIsAnAccess : Prop :=
  ∀ w : BusWord,
    (w.getLsbD 16 = true → (∃ a d, decodeBus w = .wr a d) ∧ busWord (decodeBus w) = w) ∧
    (w.getLsbD 16 = false → (∃ a, decodeBus w = .rd a) ∧ busWord (decodeBus w) >>> 8 = w >>> 8)

/-- Words written out bit by bit from 30_encoding.md sections 1 and 3 decode to what they stand for. -/
def Obligations.WrittenOutWordsDecode : Prop :=
  decodeTableWord 24 0b0_10000011_00000000 = some (.rd 0x83) ∧
  decodeTableWord 24 0b1_00000001_00100000 = some (.wr 0x01 0x20) ∧
  decodeTableWord 24 0b1_01001111_11000011 = some (.wr 0x4F 0xC3) ∧
  decodeTableWord 8 0b00000_1_00 = some (.nop true) ∧
  decodeTableWord 8 0b00000_0_01 = some (.pack false) ∧
  decodeTableWord 8 0b00000_1_10 = some (.unpack true) ∧
  decodeTableWord 8 0b00000_0_11 = some (.clear false) ∧
  decodeTableWord 8 0b00001_0_01 = none

/-! ### The step (00_scope.md R7, R13) -/

/-- A step with an access at the port is `exec` of the instruction its word decodes to; that access, and no other
event, is then gone from what the host presents (log 1, 4). -/
def Obligations.StepRunsTheDecodedAccess : Prop :=
  ∀ (s : State) (w : BusWord) (rest : List HostEvent), s.pending = .access w :: rest →
    step s = exec (decodeBus w) s ∧ ∃ t, step s = .next t ∧ t.pending = rest

/-- For every row of the opcode table: an instruction that the decoder reads from a table word is what the very next
step runs when that word is placed where the step fetches. For a command this says that writing its byte to CMD is
performing it (41_nibble_packing.md section 1; log 4, 8). -/
def Obligations.PlacedTableWordRunsAsItsInstruction : Prop :=
  ∀ (s : State) (nbits w : Nat) (i : Instr), decodeTableWord nbits w = some i →
    step (s.withFetchWord nbits w) = exec i (s.withFetchWord nbits w)

/-- The model's choice (log 2): with nothing presented the block holds its state, as 60_exceptions.md R137 says it
does for as long as it is powered and not reset. -/
def Obligations.IdleBlockHoldsItsState : Prop :=
  ∀ s : State, s.pending = [] → step s = .next s

/-- No step stops: every access is legal and an error is a code, not a trap (30_encoding.md section 3,
60_exceptions.md section 1). -/
def Obligations.EveryStepHasANextState : Prop :=
  ∀ s : State, ∃ t, step s = .next t

/-! ### Reset (70_reset_and_hazards.md section 1) -/

/-- 10_state.md R34 and 70_reset_and_hazards.md R140: whatever the state before, a reset step leaves every element at
its reset value, sets no DONE, and leaves CAP as it is; and the reset state holds those values. That the later events
stay presented is the model's choice (log 17). -/
def Obligations.ResetLeavesEveryElementAtItsResetValue : Prop :=
  (∀ (s : State) (rest : List HostEvent), s.pending = .reset :: rest →
    ∃ t, step s = .next t ∧ t.cmd = 0x00 ∧ t.len = 0x00 ∧ t.done = false ∧ t.ecode = .none ∧ t.olen = 0x00 ∧
      t.status = 0x00 ∧ (∀ j, t.byteCell j = 0x00) ∧ (∀ k, t.nibCell k = 0) ∧
      t.busRead capAddr = s.busRead capAddr ∧ t.cfg = s.cfg ∧ t.pending = rest) ∧
  State.reset.cmd = 0x00 ∧ State.reset.len = 0x00 ∧ State.reset.done = false ∧ State.reset.ecode = .none ∧
  State.reset.olen = 0x00 ∧ State.reset.status = 0x00 ∧ (∀ j, State.reset.byteCell j = 0x00) ∧
  (∀ k, State.reset.nibCell k = 0) ∧ State.reset.cfg.bmax = 16

/-- An access received while reset is asserted is not performed: a write changes nothing, a read returns some byte,
for whatever value the free value has (70_reset_and_hazards.md section 1). That it is an event of its own, apart from
the reset step, is the model's choice (log 6). -/
def Obligations.AccessDuringResetIsNotPerformed : Prop :=
  ∀ (s : State) (w : BusWord) (rest : List HostEvent), s.pending = .accessInReset w :: rest →
    ∃ t, step s = .next t ∧ s.sameBlock t ∧ t.pending = rest ∧
      (busWe w = true → t.rdata = none) ∧ (busWe w = false → ∃ d, t.rdata = some d)

/-- The state before the first reset, with every element a free value, still has the shape of a state: cells of their
widths in the buffers' own ranges; and one reset step makes it the reset state of its instance
(70_reset_and_hazards.md section 1; log 7). -/
def Obligations.PowerOnStateIsShapedAndResets : Prop :=
  ∀ c : Config, c.wf → (State.powerOn c).shaped ∧
    step { State.powerOn c with pending := [.reset] } = .next (State.resetOf c)

/-! ### Invariants -/

/-- The reset state of every legal instance, the default one among them, satisfies the invariant. -/
def Obligations.ResetStateSatisfiesTheInvariant : Prop :=
  State.reset.Inv ∧ ∀ c : Config, c.wf → (State.resetOf c).Inv

/-- From every state that satisfies the invariant, reached or not, every step leads to one that does: the buffers keep
their canonical form over exactly their cells, and CMD, DONE, ECODE and OLEN stay coherent (Safety.lean). -/
def Obligations.EveryStepKeepsTheInvariant : Prop :=
  ∀ s t : State, s.Inv → step s = .next t → t.Inv

/-- 10_state.md R30: CAP reads BMAX (0x10 in the default instance), a write to it is ignored, and it is no state: no
step changes it. -/
def Obligations.CapIsTheConstantBmax : Prop :=
  (∀ s : State, s.cfg.wf → ∃ d : Byte, d.toNat = s.cfg.bmax ∧
    exec (.rd capAddr) s = .next { s with rdata := some d, pending := s.pending.tail }) ∧
  (∃ t, exec (.rd capAddr) State.reset = .next t ∧ t.rdata = some 0x10) ∧
  (∀ (s : State) (d : Byte), exec (.wr capAddr d) s = .next { s with rdata := none, pending := s.pending.tail }) ∧
  ∀ s t : State, step s = .next t → t.cfg = s.cfg ∧ t.busRead capAddr = s.busRead capAddr

/-- 10_state.md R27: the fields of STATUS, the five values it can take and when, that a write to it is ignored, that
every command write sets DONE, and that only reset clears it. -/
def Obligations.StatusIsTheViewOfDoneAndEcode : Prop :=
  (∀ s : State, s.status.getLsbD 0 = s.done ∧ s.status.getLsbD 1 = decide (s.ecode ≠ .none) ∧
    s.status.extractLsb' 2 2 = s.ecode.code ∧ s.status.extractLsb' 4 4 = 0 ∧
    exec (.rd statusAddr) s = .next { s with rdata := some s.status, pending := s.pending.tail }) ∧
  (∀ s : State, s.Inv →
    s.done = false ∧ s.ecode = .none ∧ s.status = 0x00 ∨
    s.done = true ∧ s.ecode = .none ∧ s.status = 0x01 ∨
    s.done = true ∧ s.ecode = .invalidLength ∧ s.status = 0x07 ∨
    s.done = true ∧ s.ecode = .lengthRange ∧ s.status = 0x0B ∨
    s.done = true ∧ s.ecode = .illegalCmd ∧ s.status = 0x0F) ∧
  (∀ (s : State) (d : Byte), exec (.wr statusAddr d) s = .next { s with rdata := none, pending := s.pending.tail }) ∧
  (∀ (s : State) (c : Byte), ∃ t, exec (.wr cmdAddr c) s = .next t ∧ t.done = true) ∧
  ∀ s t : State, step s = .next t → s.done = true → t.done = false → ∃ rest, s.pending = .reset :: rest

/-! ### Host accesses (40_register_access.md) -/

/-- 40_register_access.md R80: a BUS word with `WE = 0` is a read of its ADDR; the read returns the byte the map gives
the address and changes nothing; the clauses cover every address once. A nibble cell reads with `d[7:4] = 0`; reading
again returns the same; STATUS is 0x00 before any command; the rule's example. -/
def Obligations.ReadReturnsTheAddressedElement : Prop :=
  (∀ a x : Byte, decodeBus (assembleBus 0 a x) = .rd a) ∧
  (∀ (s : State) (a : Byte), s.cfg.wf → ∃ d : Byte,
    exec (.rd a) s = .next { s with rdata := some d, pending := s.pending.tail } ∧
    (∃ u, exec (.rd a) { s with rdata := some d, pending := s.pending.tail } = .next u ∧ u.rdata = some d) ∧
    (a = 0x00 → d = s.cmd) ∧
    (a = 0x01 → d = s.len) ∧
    (a = 0x02 → d = (0#4 ++ s.ecode.code ++ BitVec.ofBool (decide (s.ecode.code ≠ 0)) ++ BitVec.ofBool s.done)) ∧
    (a = 0x03 → d = s.olen) ∧
    (a = 0x04 → d = BitVec.ofNat 8 s.cfg.bmax) ∧
    (0x05 ≤ a.toNat ∧ a.toNat < 0x40 → d = 0x00) ∧
    (∀ j, j < s.cfg.bmax → a.toNat = 0x40 + j → d = s.byteCell j) ∧
    (0x40 + s.cfg.bmax ≤ a.toNat ∧ a.toNat < 0x80 → d = 0x00) ∧
    (∀ k, k < s.cfg.nmax → a.toNat = 0x80 + k → d = 0#4 ++ s.nibCell k ∧ d.extractLsb' 4 4 = 0) ∧
    (0x80 + s.cfg.nmax ≤ a.toNat → d = 0x00)) ∧
  (∀ s : State, s.Inv → s.done = false → s.busRead 0x02 = 0x00) ∧
  State.reset.busRead 0x04 = 0x10 ∧ State.reset.busRead (nibAddr 0) = 0x00

/-- 20_memory.md R43: a reserved or unimplemented address returns 0x00 and ignores writes, without an error. -/
def Obligations.ReservedAddressesReadZeroAndIgnoreWrites : Prop :=
  ∀ (s : State) (a d : Byte), s.cfg.wf →
    (0x05 ≤ a.toNat ∧ a.toNat < 0x40) ∨ (0x40 + s.cfg.bmax ≤ a.toNat ∧ a.toNat < 0x80) ∨
      0x80 + s.cfg.nmax ≤ a.toNat →
    exec (.rd a) s = .next { s with rdata := some 0x00, pending := s.pending.tail } ∧
    exec (.wr a d) s = .next { s with rdata := none, pending := s.pending.tail }

/-- 40_register_access.md R82: STATUS, OLEN and CAP ignore writes; STATUS and OLEN change only in a command write or a
reset, CAP never; an error code is cleared by a command that succeeds, for instance NOP. -/
def Obligations.ReadOnlyRegistersChangeOnlyByCommands : Prop :=
  (∀ (s : State) (a d : Byte), a = 0x02 ∨ a = 0x03 ∨ a = 0x04 →
    exec (.wr a d) s = .next { s with rdata := none, pending := s.pending.tail }) ∧
  (∀ s t : State, step s = .next t → t.status ≠ s.status ∨ t.olen ≠ s.olen →
    (∃ rest, s.pending = .reset :: rest) ∨ ∃ w rest c, s.pending = .access w :: rest ∧ decodeBus w = .wr 0x00 c) ∧
  (∀ s t : State, step s = .next t → t.busRead 0x04 = s.busRead 0x04) ∧
  ∀ s : State, ∃ t, exec (.wr 0x00 0x00) s = .next t ∧ t.ecode = .none ∧ t.status = 0x01

/-- 40_register_access.md R84: LEN stores every byte, with no check and no other effect. -/
def Obligations.LenStoresEveryByte : Prop :=
  ∀ (s : State) (d : Byte),
    exec (.wr 0x01 d) s = .next { s with len := d, rdata := none, pending := s.pending.tail }

/-- 40_register_access.md R85: a byte cell that exists stores every byte; no other cell and nothing else changes. -/
def Obligations.ByteCellStoresEveryByte : Prop :=
  ∀ (s : State) (j : Nat) (d : Byte), s.cfg.wf → j < s.cfg.bmax →
    ∃ t, exec (.wr (byteAddr j) d) s = .next t ∧ t.byteCell j = d ∧ (∀ i, i ≠ j → t.byteCell i = s.byteCell i) ∧
      t = { s with byteBuf := t.byteBuf, rdata := none, pending := s.pending.tail }

/-- 40_register_access.md R83: a nibble cell that exists keeps `d[3:0]` and sets no error; it reads back with a zero
high half; no other cell and nothing else changes; the rule's example. -/
def Obligations.NibbleCellKeepsTheLowHalf : Prop :=
  (∀ (s : State) (k : Nat) (d : Byte), s.cfg.wf → k < s.cfg.nmax →
    ∃ t, exec (.wr (nibAddr k) d) s = .next t ∧ t.nibCell k = d.extractLsb' 0 4 ∧
      (∀ i, i ≠ k → t.nibCell i = s.nibCell i) ∧
      t = { s with nibBuf := t.nibBuf, rdata := none, pending := s.pending.tail } ∧
      ∃ u, exec (.rd (nibAddr k)) t = .next u ∧ u.rdata = some (0#4 ++ t.nibCell k)) ∧
  ∃ t u, exec (.wr (nibAddr 3) 0x1A) State.reset = .next t ∧ exec (.rd (nibAddr 3)) t = .next u ∧ u.rdata = some 0x0A

/-- The spec's own derivation in 40_register_access.md ("Host accesses never change a buffer cell or register other than
the one addressed, except a write to CMD"): a read changes nothing of the block; a write to any address but CMD changes
what no other address reads, and DONE, ECODE and OLEN stay as the last command left them. -/
def Obligations.AccessesChangeOnlyTheAddressedElement : Prop :=
  (∀ (s : State) (a : Byte), ∃ t, exec (.rd a) s = .next t ∧ s.sameBlock t) ∧
  ∀ (s : State) (a d : Byte), a ≠ 0x00 → ∃ t, exec (.wr a d) s = .next t ∧
    (∀ b, b ≠ a → t.busRead b = s.busRead b) ∧
    (∀ j, a.toNat ≠ 0x40 + j → t.byteCell j = s.byteCell j) ∧
    (∀ k, a.toNat ≠ 0x80 + k → t.nibCell k = s.nibCell k) ∧
    t.done = s.done ∧ t.ecode = s.ecode ∧ t.olen = s.olen ∧ t.status = s.status ∧ t.cmd = s.cmd

/-- The spec's own derivation in 20_memory.md section 3 ("Side effects and idempotency"): reads have no side effect, and what a read returns depends on the block alone; a write to LEN or
a cell done twice is done once; a CMD write is not so: two PACK writes with `ZS = 1` leave the byte buffer all zero. -/
def Obligations.RepeatedAccesses : Prop :=
  (∀ (s : State) (a : Byte), ∃ t, exec (.rd a) s = .next t ∧ s.sameBlock t) ∧
  (∀ (s t : State) (a : Byte), s.sameBlock t → t.busRead a = s.busRead a) ∧
  (∀ (s : State) (a d : Byte), a ≠ 0x00 →
    ∃ t u, exec (.wr a d) s = .next t ∧ exec (.wr a d) t = .next u ∧ t.sameBlock u) ∧
  (∀ s : State, s.count % 2 = 0 → s.count ≤ s.cfg.nmax →
    ∃ t u, exec (.wr 0x00 0x05) s = .next t ∧ exec (.wr 0x00 0x05) t = .next u ∧ ∀ j, u.byteCell j = 0x00) ∧
  ∃ s t u, exec (.wr 0x00 0x05) s = .next t ∧ exec (.wr 0x00 0x05) t = .next u ∧ ¬ t.sameBlock u

/-- 70_reset_and_hazards.md section 2: "the order among the writes before the CMD write does not matter": two writes to
different addresses other than CMD, in either order, leave the same block. -/
def Obligations.WritesBeforeTheCommandCommute : Prop :=
  ∀ (s : State) (a b d e : Byte), s.shaped → a ≠ 0x00 → b ≠ 0x00 → a ≠ b →
    ∃ t u t' u', exec (.wr a d) s = .next t ∧ exec (.wr b e) t = .next u ∧
      exec (.wr b e) s = .next t' ∧ exec (.wr a d) t' = .next u' ∧ u.sameBlock u'

/-! ### Commands: outcomes (41_nibble_packing.md section 1, 60_exceptions.md section 1) -/

/-- 41_nibble_packing.md R91: a CMD write reports the first check that applies, in the rule's order, and an error
changes only CMD, DONE, ECODE and OLEN: nothing is written and nothing zeroised. -/
def Obligations.CommandReportsTheFirstErrorAndThenChangesNothingElse : Prop :=
  ∀ (s : State) (c : Byte), ∃ t, exec (.wr 0x00 c) s = .next t ∧
    t.ecode =
      (if c.extractLsb' 3 5 ≠ 0 then .illegalCmd
       else if c.extractLsb' 0 2 = 1 ∧ s.len.toNat % 2 = 1 then .invalidLength
       else if c.extractLsb' 0 2 = 1 ∧ s.len.toNat > s.cfg.nmax ∨
          c.extractLsb' 0 2 = 2 ∧ s.len.toNat > s.cfg.bmax then .lengthRange
       else .none) ∧
    (t.ecode ≠ .none →
      t = { s with cmd := c, done := true, ecode := t.ecode, olen := 0x00, rdata := none,
                   pending := s.pending.tail })

/-- 30_encoding.md R68 and 60_exceptions.md R123: an illegal byte is stored in CMD and reported, and changes nothing
else, whatever its OP and ZS bits. -/
def Obligations.IllegalCommandByteIsOnlyRecorded : Prop :=
  ∀ (s : State) (c : Byte), 0x08 ≤ c.toNat →
    exec (.wr 0x00 c) s = .next { s with cmd := c, done := true, ecode := .illegalCmd, olen := 0x00, rdata := none,
                                         pending := s.pending.tail }

/-- 60_exceptions.md R121: PACK with an odd LEN fails with INVALID_LENGTH, LEN and the command byte staying readable;
no other command raises the code. -/
def Obligations.OddPackLengthIsInvalidLength : Prop :=
  (∀ (s : State) (zs : Bool), s.len.toNat % 2 = 1 →
    exec (.pack zs) s = .next { s with cmd := (if zs then 0x05 else 0x01), done := true, ecode := .invalidLength,
                                       olen := 0x00, rdata := none, pending := s.pending.tail }) ∧
  (∀ (s : State) (zs : Bool), ∃ t, exec (.unpack zs) s = .next t ∧ t.ecode ≠ .invalidLength) ∧
  (∀ (s : State) (zs : Bool), ∃ t, exec (.nop zs) s = .next t ∧ t.ecode ≠ .invalidLength) ∧
  ∀ (s : State) (zs : Bool), ∃ t, exec (.clear zs) s = .next t ∧ t.ecode ≠ .invalidLength

/-- 60_exceptions.md R122: PACK with an even `LEN > NMAX` and UNPACK with `LEN > BMAX` fail with LENGTH_RANGE, LEN and
the command byte staying readable. -/
def Obligations.LengthBeyondCapacityIsLengthRange : Prop :=
  (∀ (s : State) (zs : Bool), s.len.toNat % 2 = 0 → s.len.toNat > s.cfg.nmax →
    exec (.pack zs) s = .next { s with cmd := (if zs then 0x05 else 0x01), done := true, ecode := .lengthRange,
                                       olen := 0x00, rdata := none, pending := s.pending.tail }) ∧
  ∀ (s : State) (zs : Bool), s.len.toNat > s.cfg.bmax →
    exec (.unpack zs) s = .next { s with cmd := (if zs then 0x06 else 0x02), done := true, ecode := .lengthRange,
                                         olen := 0x00, rdata := none, pending := s.pending.tail }

/-- An error code changes only in a command write or a reset, and reissuing the failed command on the state it left
fails again with the same code and leaves the same block (60_exceptions.md section 1). -/
def Obligations.ReissuedFailedCommandFailsAgain : Prop :=
  (∀ s t : State, step s = .next t → t.ecode ≠ s.ecode →
    (∃ rest, s.pending = .reset :: rest) ∨ ∃ w rest c, s.pending = .access w :: rest ∧ decodeBus w = .wr 0x00 c) ∧
  ∀ (s t : State) (c : Byte), exec (.wr 0x00 c) s = .next t → t.ecode ≠ .none →
    ∃ u, exec (.wr 0x00 c) t = .next u ∧ u.ecode = t.ecode ∧ t.sameBlock u

/-- A command never depends on the previous CMD, DONE, ECODE or OLEN: from two states that agree on the instance, LEN
and the buffers, a CMD write leaves the same block, but for the OLEN that a NOP keeps (10_state.md section 4,
41_nibble_packing.md section 1). -/
def Obligations.CommandIgnoresCmdAndStatus : Prop :=
  ∀ (s s' : State) (c : Byte), s'.cfg = s.cfg → s'.len = s.len → s'.byteBuf = s.byteBuf → s'.nibBuf = s.nibBuf →
    ∃ t t', exec (.wr 0x00 c) s = .next t ∧ exec (.wr 0x00 c) s' = .next t' ∧
      t'.cmd = t.cmd ∧ t'.len = t.len ∧ t'.done = t.done ∧ t'.ecode = t.ecode ∧ t'.byteBuf = t.byteBuf ∧
      t'.nibBuf = t.nibBuf ∧ (c ≠ 0x00 ∧ c ≠ 0x04 → t'.olen = t.olen) ∧
      (c = 0x00 ∨ c = 0x04 → t.olen = s.olen ∧ t'.olen = s'.olen)

/-! ### Commands: effects (41_nibble_packing.md sections 2 to 4, 42_control_commands.md) -/

/-- 41_nibble_packing.md R92. PACK of an even LEN within NMAX: byte `i` of the result has nibble `2i` high and nibble
`2i+1` low, the rest of BYTE is filled with 0x00, NIB is zeroised exactly if ZS is set, OLEN is `LEN / 2`, and LEN is
unchanged. An odd LEN and an even LEN above NMAX end in their codes. The bytes 0x01 and 0x05 written to CMD are this
command. The last clause is the rule's example. -/
def Obligations.PackPutsNibblePairsIntoBytes : Prop :=
  (∀ (s : State) (zs : Bool), s.len.toNat % 2 = 0 → s.len.toNat ≤ s.cfg.nmax →
    ∃ t, exec (.pack zs) s = .next t ∧
      (∀ i, i < s.len.toNat / 2 →
        t.byteCell i = (s.nibCell (2 * i)).setWidth 8 <<< 4 ||| (s.nibCell (2 * i + 1)).setWidth 8 ∧
        (t.byteCell i).extractLsb' 4 4 = s.nibCell (2 * i) ∧
        (t.byteCell i).extractLsb' 0 4 = s.nibCell (2 * i + 1)) ∧
      (∀ j, s.len.toNat / 2 ≤ j → t.byteCell j = 0x00) ∧
      (∀ k, t.nibCell k = if zs then 0 else s.nibCell k) ∧
      t = { s with cmd := (if zs then 0x05 else 0x01), done := true, ecode := .none,
                   olen := BitVec.ofNat 8 (s.len.toNat / 2), byteBuf := t.byteBuf, nibBuf := t.nibBuf,
                   rdata := none, pending := s.pending.tail }) ∧
  (∀ (s : State) (zs : Bool), ∃ t, exec (.pack zs) s = .next t ∧
    (s.len.toNat % 2 = 1 → t.ecode = .invalidLength) ∧
    (s.len.toNat % 2 = 0 → s.cfg.nmax < s.len.toNat → t.ecode = .lengthRange)) ∧
  (∀ (s : State) (zs : Bool), exec (.wr cmdAddr (if zs then 0x05 else 0x01)) s = exec (.pack zs) s) ∧
  ∀ s : State, s.cfg = Config.standard → s.nibs.take 4 = [4, 4, 1, 2] → s.len = 4 →
    ∃ t, exec (.wr cmdAddr 0x01) s = .next t ∧ t.bytes = [0x44, 0x12] ++ List.replicate 14 0x00 ∧ t.olen = 2 ∧
      t.status = 0x01

/-- 41_nibble_packing.md R93. UNPACK of a LEN within BMAX: nibble `2i` is the high half and nibble `2i+1` the low half
of byte `i`, the rest of NIB is filled with 0, BYTE is zeroised exactly if ZS is set, OLEN is `2 * LEN` (which
`BMAX <= 64` keeps within 8 bits), and LEN is unchanged. A LEN above BMAX ends in LENGTH_RANGE, and there is no other
error. The bytes 0x02 and 0x06 written to CMD are this command. The last clause is the rule's example. -/
def Obligations.UnpackPutsByteHalvesIntoNibbles : Prop :=
  (∀ (s : State) (zs : Bool), s.cfg.wf → s.len.toNat ≤ s.cfg.bmax →
    ∃ t, exec (.unpack zs) s = .next t ∧
      (∀ i, i < s.len.toNat →
        t.nibCell (2 * i) = (s.byteCell i).extractLsb' 4 4 ∧
        t.nibCell (2 * i + 1) = (s.byteCell i).extractLsb' 0 4) ∧
      (∀ k, 2 * s.len.toNat ≤ k → t.nibCell k = 0) ∧
      (∀ j, t.byteCell j = if zs then 0x00 else s.byteCell j) ∧
      t.olen.toNat = 2 * s.len.toNat ∧
      t = { s with cmd := (if zs then 0x06 else 0x02), done := true, ecode := .none, olen := t.olen,
                   byteBuf := t.byteBuf, nibBuf := t.nibBuf, rdata := none, pending := s.pending.tail }) ∧
  (∀ (s : State) (zs : Bool), ∃ t, exec (.unpack zs) s = .next t ∧
    t.ecode = if s.cfg.bmax < s.len.toNat then .lengthRange else .none) ∧
  (∀ (s : State) (zs : Bool), exec (.wr cmdAddr (if zs then 0x06 else 0x02)) s = exec (.unpack zs) s) ∧
  ∀ s : State, s.cfg = Config.standard → s.byteCell 0 = 0xA5 → s.len = 1 →
    ∃ t, exec (.wr cmdAddr 0x02) s = .next t ∧ t.nibs = [0xA, 0x5] ++ List.replicate 30 0 ∧ t.olen = 2 ∧
      t.status = 0x01

/-- 41_nibble_packing.md R94: the whole source buffer is zeroed by a command with `ZS = 1` that succeeds, and is
unchanged by one with `ZS = 0` and by one that fails. -/
def Obligations.SourceIsZeroisedExactlyOnSuccessWithZs : Prop :=
  (∀ (s : State) (zs : Bool), ∃ t, exec (.pack zs) s = .next t ∧
    ∀ k, t.nibCell k = if zs = true ∧ t.ecode = .none then 0 else s.nibCell k) ∧
  ∀ (s : State) (zs : Bool), ∃ t, exec (.unpack zs) s = .next t ∧
    ∀ j, t.byteCell j = if zs = true ∧ t.ecode = .none then 0x00 else s.byteCell j

/-- 41_nibble_packing.md R95: after a conversion that succeeds the destination buffer is, as a sequence, the pure
conversion of the source's first LEN elements followed by zeros up to its capacity. -/
def Obligations.DestinationIsTheConversionThenZeros : Prop :=
  (∀ (s : State) (zs : Bool), s.len.toNat % 2 = 0 → s.len.toNat ≤ s.cfg.nmax →
    ∃ t r, exec (.pack zs) s = .next t ∧ packSeq (s.nibs.take s.len.toNat) = some r ∧
      r.length = s.len.toNat / 2 ∧ t.bytes = r ++ List.replicate (s.cfg.bmax - r.length) 0x00) ∧
  ∀ (s : State) (zs : Bool), s.len.toNat ≤ s.cfg.bmax →
    ∃ t r, exec (.unpack zs) s = .next t ∧ unpackSeq (s.bytes.take s.len.toNat) = r ∧
      r.length = 2 * s.len.toNat ∧ t.nibs = r ++ List.replicate (s.cfg.nmax - r.length) 0

/-- The spec's own derivation in 41_nibble_packing.md section 4 ("Round-trip laws"): the laws, of the pure functions and
of the commands: PACK n then UNPACK n/2 leaves `NIB[0..n)` as it was, and UNPACK m then PACK 2m leaves `BYTE[0..m)` as
it was, both commands succeeding, with either ZS each time. -/
def Obligations.PackAndUnpackRoundTrip : Prop :=
  (∀ l : List Nibble, l.length % 2 = 0 → ∃ b, packSeq l = some b ∧ unpackSeq b = l) ∧
  (∀ b : List Byte, packSeq (unpackSeq b) = some b) ∧
  (∀ (s : State) (n : Byte) (zs zs' : Bool), s.cfg.wf → s.len = n → n.toNat % 2 = 0 → n.toNat ≤ s.cfg.nmax →
    ∃ t u v, exec (.pack zs) s = .next t ∧ t.ecode = .none ∧
      exec (.wr lenAddr (BitVec.ofNat 8 (n.toNat / 2))) t = .next u ∧
      exec (.unpack zs') u = .next v ∧ v.ecode = .none ∧ ∀ k, k < n.toNat → v.nibCell k = s.nibCell k) ∧
  ∀ (s : State) (m : Byte) (zs zs' : Bool), s.cfg.wf → s.len = m → m.toNat ≤ s.cfg.bmax →
    ∃ t u v, exec (.unpack zs) s = .next t ∧ t.ecode = .none ∧
      exec (.wr lenAddr (BitVec.ofNat 8 (2 * m.toNat))) t = .next u ∧
      exec (.pack zs') u = .next v ∧ v.ecode = .none ∧ ∀ j, j < m.toNat → v.byteCell j = s.byteCell j

/-- The spec's own derivation in 41_nibble_packing.md section 4 ("Statelessness"): after a PACK that succeeds the whole of BYTE depends on LEN and `NIB[0..LEN)` alone, after
an UNPACK that succeeds the whole of NIB on LEN and `BYTE[0..LEN)` alone (in one instance): not on the source's other
cells, the destination's old contents, CMD, the status or OLEN. -/
def Obligations.ResultDependsOnLenAndSourceAlone : Prop :=
  (∀ (s s' : State) (zs zs' : Bool), s'.cfg = s.cfg → s'.len = s.len → s.len.toNat % 2 = 0 →
    s.len.toNat ≤ s.cfg.nmax → (∀ k, k < s.len.toNat → s'.nibCell k = s.nibCell k) →
    ∃ t t', exec (.pack zs) s = .next t ∧ exec (.pack zs') s' = .next t' ∧ t'.byteBuf = t.byteBuf) ∧
  ∀ (s s' : State) (zs zs' : Bool), s'.cfg = s.cfg → s'.len = s.len → s.len.toNat ≤ s.cfg.bmax →
    (∀ j, j < s.len.toNat → s'.byteCell j = s.byteCell j) →
    ∃ t t', exec (.unpack zs) s = .next t ∧ exec (.unpack zs') s' = .next t' ∧ t'.nibBuf = t.nibBuf

/-- The spec's own derivation in 41_nibble_packing.md section 4 ("Lane view"): lanes do not interact. Byte lane `i` of PACK is decided by nibble lanes `2i` and `2i+1`,
nibble lanes `2i` and `2i+1` of UNPACK by byte lane `i`; every lane below the count is active, every one at or above
it is zero. -/
def Obligations.LanesDoNotInteract : Prop :=
  (∀ (s s' : State) (zs zs' : Bool) (i : Nat), s'.cfg = s.cfg → s'.len = s.len → s.len.toNat % 2 = 0 →
    s.len.toNat ≤ s.cfg.nmax → s'.nibCell (2 * i) = s.nibCell (2 * i) →
    s'.nibCell (2 * i + 1) = s.nibCell (2 * i + 1) →
    ∃ t t', exec (.pack zs) s = .next t ∧ exec (.pack zs') s' = .next t' ∧ t'.byteCell i = t.byteCell i ∧
      t.byteCell i = if i < s.len.toNat / 2 then s.nibCell (2 * i) ++ s.nibCell (2 * i + 1) else 0x00) ∧
  ∀ (s s' : State) (zs zs' : Bool) (i : Nat), s'.cfg = s.cfg → s'.len = s.len → s.len.toNat ≤ s.cfg.bmax →
    s'.byteCell i = s.byteCell i →
    ∃ t t', exec (.unpack zs) s = .next t ∧ exec (.unpack zs') s' = .next t' ∧
      t'.nibCell (2 * i) = t.nibCell (2 * i) ∧ t'.nibCell (2 * i + 1) = t.nibCell (2 * i + 1) ∧
      t.nibCell (2 * i) = (if i < s.len.toNat then (s.byteCell i).extractLsb' 4 4 else 0) ∧
      t.nibCell (2 * i + 1) = (if i < s.len.toNat then (s.byteCell i).extractLsb' 0 4 else 0)

/-- The spec's own derivation in 41_nibble_packing.md section 4 ("Length zero"): `LEN = 0` is accepted by both conversions; the result is empty and the destination all
zero. -/
def Obligations.LengthZeroSucceedsWithNothing : Prop :=
  ∀ (s : State) (zs : Bool), s.len = 0x00 →
    (∃ t, exec (.pack zs) s = .next t ∧ t.ecode = .none ∧ t.olen = 0x00 ∧ ∀ j, t.byteCell j = 0x00) ∧
    ∃ t, exec (.unpack zs) s = .next t ∧ t.ecode = .none ∧ t.olen = 0x00 ∧ ∀ k, t.nibCell k = 0

/-- The spec's own derivation in 41_nibble_packing.md section 4 ("Arithmetic laws"): the byte of two nibbles is `16 * h + l`, without overlapping bits, and the halves come
back; `LEN / 2` is exact and every index stays below NMAX once PACK's or UNPACK's checks have passed; OLEN is at most
`2 * BMAX <= 128`. -/
def Obligations.PackedByteIsExact : Prop :=
  (∀ h l : Nibble, (packByte h l).toNat = 16 * h.toNat + l.toNat ∧ (zext8 h <<< 4) &&& zext8 l = 0 ∧
    highNibble (packByte h l) = h ∧ lowNibble (packByte h l) = l) ∧
  (∀ b : Byte, packByte (highNibble b) (lowNibble b) = b) ∧
  (∀ s : State, s.len.toNat % 2 = 0 → s.len.toNat ≤ s.cfg.nmax →
    2 * (s.len.toNat / 2) = s.len.toNat ∧ s.len.toNat / 2 ≤ s.cfg.bmax ∧
    ∀ i, i < s.len.toNat / 2 → 2 * i < s.cfg.nmax ∧ 2 * i + 1 < s.cfg.nmax) ∧
  (∀ s : State, s.len.toNat ≤ s.cfg.bmax →
    ∀ i, i < s.len.toNat → 2 * i < s.cfg.nmax ∧ 2 * i + 1 < s.cfg.nmax) ∧
  ∀ s : State, s.Inv → s.olen.toNat ≤ 2 * s.cfg.bmax ∧ 2 * s.cfg.bmax ≤ 128

/-- What the host reads through the bus after a conversion that succeeded: below OLEN the result, from OLEN up to the
capacity 0x00 (20_memory.md section 5). -/
def Obligations.BusReadsTheResultAfterAConversion : Prop :=
  (∀ (s : State) (zs : Bool), s.cfg.wf → s.len.toNat % 2 = 0 → s.len.toNat ≤ s.cfg.nmax →
    ∃ t, exec (.pack zs) s = .next t ∧ ∀ j, j < s.cfg.bmax →
      t.busRead (byteAddr j) =
        if j < t.olen.toNat then s.nibCell (2 * j) ++ s.nibCell (2 * j + 1) else 0x00) ∧
  ∀ (s : State) (zs : Bool), s.cfg.wf → s.len.toNat ≤ s.cfg.bmax →
    ∃ t, exec (.unpack zs) s = .next t ∧ ∀ k, k < s.cfg.nmax →
      t.busRead (nibAddr k) =
        if k < t.olen.toNat then
          (if k % 2 = 0 then (s.byteCell (k / 2) >>> 4) else (s.byteCell (k / 2) &&& 0x0F))
        else 0x00

/-- 42_control_commands.md R110: NOP sets DONE and `ECODE = NONE` and changes nothing else but CMD, OLEN included; the
bytes 0x00 and 0x04 written to CMD are this command; after reset it makes STATUS 0x01, and after an error too, leaving
`OLEN = 0`; the rule's example. -/
def Obligations.NopReportsSuccess : Prop :=
  (∀ (s : State) (zs : Bool),
    exec (.nop zs) s = .next { s with cmd := (if zs then 0x04 else 0x00), done := true, ecode := .none, rdata := none,
                                      pending := s.pending.tail }) ∧
  (∀ (s : State) (zs : Bool), exec (.wr cmdAddr (if zs then 0x04 else 0x00)) s = exec (.nop zs) s) ∧
  (∀ zs : Bool, ∃ t, exec (.nop zs) State.reset = .next t ∧ t.status = 0x01) ∧
  (∀ (s : State) (zs : Bool), s.Inv → s.ecode ≠ .none →
    ∃ t, exec (.nop zs) s = .next t ∧ t.status = 0x01 ∧ t.err = false ∧ t.olen = 0x00) ∧
  ∀ s : State, s.status = 0x07 → ∃ t, exec (.wr 0x00 0x00) s = .next t ∧ t.status = 0x01

/-- 42_control_commands.md R111: CLEAR zeroes both buffers, LEN and OLEN and sets `ECODE = NONE`; CMD keeps the byte
(0x03 or 0x07, which written to CMD are this command) and DONE stays 1, so the block differs from the reset state only
in CMD and DONE; where buffers and counts are zero already only CMD, DONE and ECODE change; the rule's example. -/
def Obligations.ClearZeroesBuffersAndCounts : Prop :=
  (∀ (s : State) (zs : Bool), ∃ t, exec (.clear zs) s = .next t ∧
    (∀ j, t.byteCell j = 0x00) ∧ (∀ k, t.nibCell k = 0) ∧ t.len = 0x00 ∧ t.olen = 0x00 ∧ t.ecode = .none ∧
    t = { State.resetOf s.cfg with cmd := (if zs then 0x07 else 0x03), done := true, pending := s.pending.tail,
                                   draws := s.draws }) ∧
  (∀ (s : State) (zs : Bool), exec (.wr cmdAddr (if zs then 0x07 else 0x03)) s = exec (.clear zs) s) ∧
  (∀ (s : State) (zs : Bool), s.byteBuf = Memory.zeros → s.nibBuf = Memory.zeros → s.len = 0x00 → s.olen = 0x00 →
    exec (.clear zs) s = .next { s with cmd := (if zs then 0x07 else 0x03), done := true, ecode := .none, rdata := none,
                                        pending := s.pending.tail }) ∧
  ∀ s : State, ∃ t, exec (.wr 0x00 0x03) s = .next t ∧ t.busRead (byteAddr 0) = 0x00 ∧
    t.busRead (nibAddr 31) = 0x00 ∧ t.busRead lenAddr = 0x00 ∧ t.busRead statusAddr = 0x01

/-- NOP and CLEAR ignore ZS: with it they do the same, but for the byte that CMD keeps (30_encoding.md section 1). -/
def Obligations.NopAndClearIgnoreZs : Prop :=
  ∀ s : State,
    (∃ t t', exec (.nop false) s = .next t ∧ exec (.nop true) s = .next t' ∧ t' = { t with cmd := 0x04 }) ∧
    ∃ t t', exec (.clear false) s = .next t ∧ exec (.clear true) s = .next t' ∧ t' = { t with cmd := 0x07 }

/-- An instance with `BMAX < 16` cannot hold the 16-byte plaintext block: PACK of 32 nibbles and UNPACK of 16 bytes
end in LENGTH_RANGE (00_scope.md section 6). -/
def Obligations.SmallInstanceCannotHoldAPlaintextBlock : Prop :=
  ∀ (s : State) (zs : Bool), s.cfg.bmax < 16 →
    (s.len = 32 → ∃ t, exec (.pack zs) s = .next t ∧ t.ecode = .lengthRange ∧ t.olen = 0x00) ∧
    (s.len = 16 → ∃ t, exec (.unpack zs) s = .next t ∧ t.ecode = .lengthRange ∧ t.olen = 0x00)

/-! ### Pseudo-operations (30_encoding.md section 4) -/

/-- The one-command pseudo-operations of 30_encoding.md section 4 do what their names say: the expansion's accesses,
run as steps, are LEN set to `n` and then the command (for NOP and CLEAR, the command alone). -/
def Obligations.PseudoConversionsSetLenAndConvert : Prop :=
  ∀ (s : State) (n : Byte) (zs : Bool) (rest : List HostEvent),
    (s.pending = presented (if zs then Pseudo.packZs n else .pack n).expand ++ rest →
      runSteps 2 s = exec (.pack zs) { s with len := n, rdata := none, pending := s.pending.tail }) ∧
    (s.pending = presented (if zs then Pseudo.unpackZs n else .unpack n).expand ++ rest →
      runSteps 2 s = exec (.unpack zs) { s with len := n, rdata := none, pending := s.pending.tail }) ∧
    (s.pending = presented Pseudo.nop.expand ++ rest → runSteps 1 s = exec (.nop false) s) ∧
    (s.pending = presented Pseudo.clear.expand ++ rest → runSteps 1 s = exec (.clear false) s)

/-- LOADN and LOADB of 30_encoding.md section 4 store their values in consecutive cells from the first one named, and
change no other cell, no register and nothing of the status. -/
def Obligations.PseudoLoadsFillConsecutiveCells : Prop :=
  (∀ (s : State) (k : Nat) (vs : List Byte) (rest : List HostEvent), s.cfg.wf →
    (Pseudo.loadN k vs).wellFormed s.cfg = true →
    s.pending = presented (Pseudo.loadN k vs).expand ++ rest →
    ∃ t, runSteps vs.length s = .next t ∧
      (∀ (i : Nat) (v : Byte), vs[i]? = some v → t.nibCell (k + i) = v.extractLsb' 0 4) ∧
      (∀ i, i < k ∨ k + vs.length ≤ i → t.nibCell i = s.nibCell i) ∧
      t = { s with nibBuf := t.nibBuf, rdata := none, pending := rest }) ∧
  ∀ (s : State) (j : Nat) (bs : List Byte) (rest : List HostEvent), s.cfg.wf →
    (Pseudo.loadB j bs).wellFormed s.cfg = true →
    s.pending = presented (Pseudo.loadB j bs).expand ++ rest →
    ∃ t, runSteps bs.length s = .next t ∧
      (∀ (i : Nat) (b : Byte), bs[i]? = some b → t.byteCell (j + i) = b) ∧
      (∀ i, i < j ∨ j + bs.length ≤ i → t.byteCell i = s.byteCell i) ∧
      t = { s with byteBuf := t.byteBuf, rdata := none, pending := rest }
end

