-- ==== Sys2Proof/Laws/Decode.lean ====
section
/-! SUPPORT. The small lemmas of the encoding: fields of an assembled word, and of an assembled command byte. -/

namespace Sys2Proof

/-- The bits of an assembled BUS word: DATA below, ADDR above it, WE on top (30_encoding.md R60). -/
theorem getLsbD_assembleBus (we : BitVec 1) (a d : Byte) (i : Nat) :
    (assembleBus we a d).getLsbD i =
      if i < 8 then d.getLsbD i else if i - 8 < 8 then a.getLsbD (i - 8) else we.getLsbD (i - 8 - 8) := by
  have h : (assembleBus we a d).getLsbD i = (we ++ a ++ d).getLsbD i := rfl
  rw [h, BitVec.getLsbD_append, BitVec.getLsbD_append]

@[simp] theorem busWe_assembleBus (we : BitVec 1) (a d : Byte) : busWe (assembleBus we a d) = we.getLsbD 0 := by
  rw [busWe, getLsbD_assembleBus, if_neg (by decide), if_neg (by decide)]

@[simp] theorem busAddr_assembleBus (we : BitVec 1) (a d : Byte) : busAddr (assembleBus we a d) = a := by
  apply BitVec.eq_of_getLsbD_eq
  intro i hi
  rw [busAddr, BitVec.getLsbD_extractLsb', getLsbD_assembleBus, if_neg (by omega), if_pos (by omega),
    Nat.add_sub_cancel_left]
  simp [hi]

@[simp] theorem busData_assembleBus (we : BitVec 1) (a d : Byte) : busData (assembleBus we a d) = d := by
  apply BitVec.eq_of_getLsbD_eq
  intro i hi
  rw [busData, BitVec.getLsbD_extractLsb', getLsbD_assembleBus, if_pos (by omega), Nat.zero_add]
  simp [hi]

/-- A word is its three fields. -/
theorem assembleBus_fields (w : BusWord) : assembleBus (BitVec.ofBool (busWe w)) (busAddr w) (busData w) = w := by
  apply BitVec.eq_of_getLsbD_eq
  intro i hi
  rw [getLsbD_assembleBus, busWe, busAddr, busData]
  split
  · rename_i h
    rw [BitVec.getLsbD_extractLsb', Nat.zero_add]
    simp [h]
  · split
    · rename_i h1 h2
      rw [BitVec.getLsbD_extractLsb', show 8 + (i - 8) = i by omega]
      simp [h2]
    · obtain rfl : i = 16 := by omega
      cases w.getLsbD 16 <;> rfl

theorem decodeBus_read (a d : Byte) : decodeBus (assembleBus 0 a d) = .rd a := by
  simp [decodeBus]

theorem decodeBus_write (a d : Byte) : decodeBus (assembleBus 1 a d) = .wr a d := by
  simp [decodeBus]

theorem decodeBus_cmdAccess (c : Byte) : decodeBus (cmdAccess c) = .wr cmdAddr c := decodeBus_write ..

/-- Each command's byte decodes to it. -/
theorem decodeCommand_encodeCommand (k : Command) : decodeCommand (encodeCommand k) = .ok k := by
  cases k <;> rename_i zs <;> cases zs <;> decide

/-- Only the byte of a command decodes to it. -/
theorem encodeCommand_of_decodeCommand {c : Byte} {k : Command} (h : decodeCommand c = .ok k) :
    encodeCommand k = c := by
  have key : ∀ c : Byte, (decodeCommand c).toOption.all (fun k => encodeCommand k == c) = true := by
    decide +kernel
  have := key c
  rw [h] at this
  simpa [Except.toOption] using this

/-- A byte with `RSV != 0` is illegal (30_encoding.md R66). -/
theorem decodeCommand_of_rsv {c : Byte} (h : cmdRsv c ≠ 0) : decodeCommand c = .error (.illegalCmd c) := by
  rw [decodeCommand, if_pos h]

/-- A byte with `RSV = 0` is a command (30_encoding.md R66). -/
theorem decodeCommand_of_not_rsv {c : Byte} (h : cmdRsv c = 0) : ∃ k, decodeCommand c = .ok k := by
  rw [decodeCommand, if_neg (not_not_intro h)]
  split
  · exact ⟨_, rfl⟩
  · split
    · exact ⟨_, rfl⟩
    · split <;> exact ⟨_, rfl⟩

theorem cmdRsv_ne_zero_iff (c : Byte) : cmdRsv c ≠ 0 ↔ 8 ≤ c.toNat := by
  revert c
  decide +kernel

/-- The fields of an assembled command byte. -/
theorem assembleCommand_fields (zs : Bool) (op : BitVec 2) :
    cmdOp (assembleCommand zs op) = op ∧ cmdZs (assembleCommand zs op) = zs ∧ cmdRsv (assembleCommand zs op) = 0 := by
  revert zs op
  decide

end Sys2Proof
end

