-- ==== Sys2Proof/Laws/Memory.lean ====
section
/-! SUPPORT. The laws of the buffer store: read after write, the canonical form kept by every operation, and equality
of canonical buffers that read alike. -/

namespace Sys2Proof.Machine

variable {w : Nat}

@[simp] theorem Memory.read_zeros (a : Nat) : (Memory.zeros : Memory w).read a = 0 := rfl

@[simp] theorem Memory.read_nil (a : Nat) : Memory.read ([] : Memory w) a = 0 := rfl

theorem Memory.read_cons (c : Nat × BitVec w) (m : Memory w) (a : Nat) :
    Memory.read (c :: m) a = if c.1 = a then c.2 else m.read a := rfl

/-- A cell with no entry reads as an unlisted cell. -/
theorem Memory.read_of_not_mem (m : Memory w) (a : Nat) (h : ∀ c ∈ m, c.1 ≠ a) : m.read a = 0 := by
  induction m with
  | nil => rfl
  | cons c m ih =>
    rw [read_cons, if_neg (h c (List.mem_cons_self ..))]
    exact ih fun d hd => h d (List.mem_cons_of_mem _ hd)

theorem Memory.read_erase (m : Memory w) (a b : Nat) :
    (m.erase a).read b = if b = a then 0 else m.read b := by
  induction m with
  | nil => simp [erase]
  | cons c m ih =>
    simp only [erase, List.filter_cons] at ih ⊢
    by_cases hc : c.1 = a
    · simp only [hc, ne_eq, not_true_eq_false, decide_false, Bool.false_eq_true, ↓reduceIte, ih, read_cons]
      split <;> rename_i h
      · rfl
      · rw [if_neg (Ne.symm h)]
    · simp only [ne_eq, hc, not_false_eq_true, decide_true, ↓reduceIte, read_cons, ih]
      by_cases hb : b = a
      · subst hb; simp [hc]
      · simp [hb]

theorem Memory.read_insert (m : Memory w) (a b : Nat) (v : BitVec w) (h : ∀ c ∈ m, c.1 ≠ a) :
    (Memory.insert a v m).read b = if b = a then v else m.read b := by
  induction m with
  | nil => simp [insert, read_cons, eq_comm]
  | cons c m ih =>
    unfold insert
    split
    · simp [read_cons, eq_comm]
    · rw [read_cons, ih fun d hd => h d (List.mem_cons_of_mem _ hd), read_cons]
      by_cases hb : b = a
      · subst hb; simp [h c (List.mem_cons_self ..)]
      · simp [hb]

theorem Memory.not_mem_erase (m : Memory w) (a : Nat) : ∀ c ∈ m.erase a, c.1 ≠ a := by
  intro c hc
  simpa using (List.mem_filter.mp hc).2

/-- Everything a write does to what is read: the cell written, and no other. -/
theorem Memory.read_write (m : Memory w) (a b : Nat) (v : BitVec w) :
    (m.write a v).read b = if b = a then v else m.read b := by
  unfold write
  split <;> rename_i h
  · rw [read_erase, h]; rfl
  · rw [read_insert _ _ _ _ (not_mem_erase m a), read_erase]
    split <;> simp_all

@[simp] theorem Memory.read_write_same (m : Memory w) (a : Nat) (v : BitVec w) : (m.write a v).read a = v := by
  simp [read_write]

theorem Memory.read_write_other (m : Memory w) {a b : Nat} (v : BitVec w) (h : b ≠ a) :
    (m.write a v).read b = m.read b := by
  simp [read_write, h]

/-- Everything a table reads as: `f` below its size, 0 above. -/
theorem Memory.read_table (n : Nat) (f : Nat → BitVec w) (a : Nat) :
    (Memory.table n f).read a = if a < n then f a else 0 := by
  have key : ∀ l : List Nat,
      Memory.read ((l.map fun k => (k, f k)).filter fun c => c.2 ≠ Memory.unlisted w) a =
        if a ∈ l then f a else 0 := by
    intro l
    induction l with
    | nil => simp
    | cons k l ih =>
      simp only [List.map_cons, List.filter_cons]
      by_cases hz : f k = Memory.unlisted w
      · simp only [hz, ne_eq, not_true_eq_false, decide_false, Bool.false_eq_true, ↓reduceIte, ih, List.mem_cons]
        by_cases hk : a = k
        · subst hk; simp [hz, Memory.unlisted]
        · simp [hk]
      · simp only [ne_eq, hz, not_false_eq_true, decide_true, ↓reduceIte, read_cons, ih, List.mem_cons]
        by_cases hk : a = k
        · subst hk; simp
        · simp [hk, Ne.symm hk]
  simpa [table] using key (List.range n)

/-! ### The canonical form -/

theorem Memory.wf_zeros (cap : Nat) : (Memory.zeros : Memory w).wf cap :=
  ⟨List.Pairwise.nil, fun _ hc => absurd hc (List.not_mem_nil)⟩

theorem Memory.wf_erase {cap : Nat} {m : Memory w} (a : Nat) (h : m.wf cap) : (m.erase a).wf cap :=
  ⟨h.1.filter _, fun c hc => h.2 c (List.mem_of_mem_filter hc)⟩

theorem Memory.mem_insert {m : Memory w} {a : Nat} {v : BitVec w} {c : Nat × BitVec w}
    (h : c ∈ Memory.insert a v m) : c = (a, v) ∨ c ∈ m := by
  induction m with
  | nil => simpa [insert] using h
  | cons d m ih =>
    unfold insert at h
    split at h
    · simpa using h
    · rcases List.mem_cons.mp h with rfl | h
      · exact .inr (List.mem_cons_self ..)
      · exact (ih h).imp id (List.mem_cons_of_mem _)

theorem Memory.wf_insert {cap : Nat} {m : Memory w} {a : Nat} {v : BitVec w} (h : m.wf cap)
    (hm : ∀ c ∈ m, c.1 ≠ a) (ha : a < cap) (hv : v ≠ Memory.unlisted w) : (Memory.insert a v m).wf cap := by
  refine ⟨?_, fun c hc => ?_⟩
  · have hp := h.1
    clear h
    induction m with
    | nil => simp [insert]
    | cons d m ih =>
      unfold insert
      obtain ⟨hd, hp'⟩ := List.pairwise_cons.mp hp
      split
      · rename_i hlt
        refine List.pairwise_cons.mpr ⟨fun c hc => ?_, hp⟩
        rcases List.mem_cons.mp hc with rfl | hc
        · exact hlt
        · exact Nat.lt_trans hlt (hd c hc)
      · rename_i hge
        refine List.pairwise_cons.mpr ⟨fun c hc => ?_, ih (fun c hc => hm c (List.mem_cons_of_mem _ hc)) hp'⟩
        rcases mem_insert hc with rfl | hc
        · have := hm d (List.mem_cons_self ..)
          simp only at hge ⊢
          omega
        · exact hd c hc
  · rcases mem_insert hc with rfl | hc
    · exact ⟨ha, hv⟩
    · exact h.2 c hc

/-- A write to an existing cell keeps the canonical form. -/
theorem Memory.wf_write {cap : Nat} {m : Memory w} {a : Nat} (v : BitVec w) (h : m.wf cap) (ha : a < cap) :
    (m.write a v).wf cap := by
  unfold write
  split <;> rename_i hv
  · exact wf_erase a h
  · exact wf_insert (wf_erase a h) (not_mem_erase m a) ha hv

theorem Memory.wf_table (n : Nat) (f : Nat → BitVec w) : (Memory.table n f).wf n := by
  refine ⟨List.Pairwise.filter _ ?_, fun c hc => ?_⟩
  · rw [List.pairwise_map]
    exact List.pairwise_lt_range
  · obtain ⟨hc, hz⟩ := List.mem_filter.mp hc
    obtain ⟨k, hk, rfl⟩ := List.mem_map.mp hc
    exact ⟨List.mem_range.mp hk, by simpa using hz⟩

/-- A cell past a canonical buffer's end reads 0. -/
theorem Memory.read_of_le {cap : Nat} {m : Memory w} (h : m.wf cap) {a : Nat} (ha : cap ≤ a) : m.read a = 0 :=
  read_of_not_mem m a fun c hc => by have := (h.2 c hc).1; omega

theorem Memory.wf_tail {cap : Nat} {c : Nat × BitVec w} {m : Memory w} (h : Memory.wf cap (c :: m)) : m.wf cap :=
  ⟨(List.pairwise_cons.mp h.1).2, fun d hd => h.2 d (List.mem_cons_of_mem _ hd)⟩

/-- Below the first entry of a canonical buffer everything reads 0. -/
theorem Memory.read_of_lt_head {cap : Nat} {c : Nat × BitVec w} {m : Memory w} (h : Memory.wf cap (c :: m))
    {a : Nat} (ha : a < c.1) : Memory.read (c :: m) a = 0 := by
  refine read_of_not_mem _ _ fun d hd => ?_
  rcases List.mem_cons.mp hd with rfl | hd
  · omega
  · have := (List.pairwise_cons.mp h.1).1 d hd
    omega

/-- Canonical buffers that read alike are the same data. -/
theorem Memory.eq_of_read {cap : Nat} {m n : Memory w} (hm : m.wf cap) (hn : n.wf cap)
    (h : ∀ a, m.read a = n.read a) : m = n := by
  induction m generalizing n with
  | nil =>
    cases n with
    | nil => rfl
    | cons d n =>
      have := h d.1
      rw [read_nil, read_cons, if_pos rfl] at this
      exact absurd this.symm (hn.2 d (List.mem_cons_self ..)).2
  | cons c m ih =>
    have hc := (hm.2 c (List.mem_cons_self ..)).2
    cases n with
    | nil =>
      have := h c.1
      rw [read_nil, read_cons, if_pos rfl] at this
      exact absurd this hc
    | cons d n =>
      have hd := (hn.2 d (List.mem_cons_self ..)).2
      have hcd : c.1 = d.1 := by
        rcases Nat.lt_trichotomy c.1 d.1 with hlt | heq | hgt
        · have := h c.1
          rw [read_of_lt_head hn hlt, read_cons, if_pos rfl] at this
          exact absurd this hc
        · exact heq
        · have := h d.1
          rw [read_of_lt_head hm hgt, read_cons, if_pos rfl] at this
          exact absurd this.symm hd
      have hv : c.2 = d.2 := by
        have := h c.1
        rwa [read_cons, if_pos rfl, read_cons, if_pos hcd.symm] at this
      have htail : m = n := ih (wf_tail hm) (wf_tail hn) fun a => by
        have ha := h a
        by_cases hac : c.1 = a
        · have h1 := (List.pairwise_cons.mp hm.1).1
          have h2 := (List.pairwise_cons.mp hn.1).1
          rw [read_of_not_mem m a fun e he => by have := h1 e he; omega,
            read_of_not_mem n a fun e he => by have := h2 e he; omega]
        · rwa [read_cons, if_neg hac, read_cons, if_neg (hcd ▸ hac)] at ha
      rw [htail, Prod.ext hcd hv]

theorem Memory.erase_cons_same (m : Memory w) (a : Nat) (v : BitVec w) : Memory.erase ((a, v) :: m) a = m.erase a := by
  simp [erase]

theorem Memory.erase_cons_ne (m : Memory w) {a : Nat} {c : Nat × BitVec w} (h : c.1 ≠ a) :
    Memory.erase (c :: m) a = c :: m.erase a := by
  simp [erase, h]

theorem Memory.erase_of_not_mem (m : Memory w) {a : Nat} (h : ∀ c ∈ m, c.1 ≠ a) : m.erase a = m :=
  List.filter_eq_self.mpr fun c hc => by simpa using h c hc

theorem Memory.erase_insert (m : Memory w) {a : Nat} (v : BitVec w) (h : ∀ c ∈ m, c.1 ≠ a) :
    (Memory.insert a v m).erase a = m := by
  induction m with
  | nil => exact erase_cons_same ..
  | cons c m ih =>
    unfold insert
    split
    · rw [erase_cons_same, erase_of_not_mem _ h]
    · rw [erase_cons_ne _ (h c (List.mem_cons_self ..)), ih fun d hd => h d (List.mem_cons_of_mem _ hd)]

/-- Writing a value twice is writing it once. -/
theorem Memory.write_write (m : Memory w) (a : Nat) (v : BitVec w) : (m.write a v).write a v = m.write a v := by
  unfold write
  split
  · exact erase_of_not_mem _ (not_mem_erase m a)
  · rw [erase_insert _ _ (not_mem_erase m a)]

/-- Writes to different cells of a canonical buffer commute. -/
theorem Memory.write_comm {cap : Nat} {m : Memory w} {a b : Nat} (u v : BitVec w) (h : m.wf cap) (ha : a < cap)
    (hb : b < cap) (hab : a ≠ b) : (m.write a u).write b v = (m.write b v).write a u := by
  refine eq_of_read (wf_write v (wf_write u h ha) hb) (wf_write u (wf_write v h hb) ha) fun c => ?_
  simp only [read_write]
  split
  · subst_vars; simp [Ne.symm hab]
  · rfl

end Sys2Proof.Machine
end

