-- ==== Sys2Proof/Laws/Nibbles.lean ====
section
/-! SUPPORT. The small lemmas of the conversion. -/

namespace Sys2Proof.Machine

@[simp] theorem highNibble_packByte (h l : Nibble) : highNibble (packByte h l) = h := by
  revert h l
  decide

@[simp] theorem lowNibble_packByte (h l : Nibble) : lowNibble (packByte h l) = l := by
  revert h l
  decide

@[simp] theorem packByte_halves (b : Byte) : packByte (highNibble b) (lowNibble b) = b := by
  revert b
  decide +kernel

/-- The shift and OR of the formula put the two nibbles side by side. -/
theorem packByte_eq_append (h l : Nibble) : packByte h l = h ++ l := by
  revert h l
  decide

@[simp] theorem packSeq_pair (h l : Nibble) (rest : List Nibble) :
    packSeq (h :: l :: rest) = (packSeq rest).map (packByte h l :: ·) := by
  rw [packSeq]

@[simp] theorem unpackSeq_cons (b : Byte) (rest : List Byte) :
    unpackSeq (b :: rest) = highNibble b :: lowNibble b :: unpackSeq rest := by
  rw [unpackSeq]

/-- "Produces exactly `2 * len(bytes)` nibbles" (41_nibble_packing.md R93). -/
theorem unpackSeq_length (b : List Byte) : (unpackSeq b).length = 2 * b.length := by
  induction b with
  | nil => rfl
  | cons b rest ih => simp only [unpackSeq_cons, List.length_cons, ih]; omega

end Sys2Proof.Machine
end

