-- ==== Sys2Proof/Laws/State.lean ====
section
/-! SUPPORT. One lemma per field per named update of the state, and per field of the reset state; later proofs do not
unfold a record update. -/

namespace Sys2Proof.Machine

variable (s : State)

/-! ### `State.issue` -/

@[simp] theorem State.issue_cfg (c : Byte) : (s.issue c).cfg = s.cfg := rfl
@[simp] theorem State.issue_cmd (c : Byte) : (s.issue c).cmd = c := rfl
@[simp] theorem State.issue_len (c : Byte) : (s.issue c).len = s.len := rfl
@[simp] theorem State.issue_done (c : Byte) : (s.issue c).done = true := rfl
@[simp] theorem State.issue_ecode (c : Byte) : (s.issue c).ecode = s.ecode := rfl
@[simp] theorem State.issue_olen (c : Byte) : (s.issue c).olen = s.olen := rfl
@[simp] theorem State.issue_byteBuf (c : Byte) : (s.issue c).byteBuf = s.byteBuf := rfl
@[simp] theorem State.issue_nibBuf (c : Byte) : (s.issue c).nibBuf = s.nibBuf := rfl
@[simp] theorem State.issue_rdata (c : Byte) : (s.issue c).rdata = s.rdata := rfl
@[simp] theorem State.issue_pending (c : Byte) : (s.issue c).pending = s.pending := rfl
@[simp] theorem State.issue_draws (c : Byte) : (s.issue c).draws = s.draws := rfl

/-! ### `State.fail` -/

@[simp] theorem State.fail_cfg (e : ECode) : (s.fail e).cfg = s.cfg := rfl
@[simp] theorem State.fail_cmd (e : ECode) : (s.fail e).cmd = s.cmd := rfl
@[simp] theorem State.fail_len (e : ECode) : (s.fail e).len = s.len := rfl
@[simp] theorem State.fail_done (e : ECode) : (s.fail e).done = s.done := rfl
@[simp] theorem State.fail_ecode (e : ECode) : (s.fail e).ecode = e := rfl
@[simp] theorem State.fail_olen (e : ECode) : (s.fail e).olen = 0x00 := rfl
@[simp] theorem State.fail_byteBuf (e : ECode) : (s.fail e).byteBuf = s.byteBuf := rfl
@[simp] theorem State.fail_nibBuf (e : ECode) : (s.fail e).nibBuf = s.nibBuf := rfl
@[simp] theorem State.fail_rdata (e : ECode) : (s.fail e).rdata = s.rdata := rfl
@[simp] theorem State.fail_pending (e : ECode) : (s.fail e).pending = s.pending := rfl
@[simp] theorem State.fail_draws (e : ECode) : (s.fail e).draws = s.draws := rfl

/-! ### `State.succeed` -/

@[simp] theorem State.succeed_cfg (n : Nat) : (s.succeed n).cfg = s.cfg := rfl
@[simp] theorem State.succeed_cmd (n : Nat) : (s.succeed n).cmd = s.cmd := rfl
@[simp] theorem State.succeed_len (n : Nat) : (s.succeed n).len = s.len := rfl
@[simp] theorem State.succeed_done (n : Nat) : (s.succeed n).done = s.done := rfl
@[simp] theorem State.succeed_ecode (n : Nat) : (s.succeed n).ecode = .none := rfl
@[simp] theorem State.succeed_olen (n : Nat) : (s.succeed n).olen = BitVec.ofNat 8 n := rfl
@[simp] theorem State.succeed_byteBuf (n : Nat) : (s.succeed n).byteBuf = s.byteBuf := rfl
@[simp] theorem State.succeed_nibBuf (n : Nat) : (s.succeed n).nibBuf = s.nibBuf := rfl
@[simp] theorem State.succeed_rdata (n : Nat) : (s.succeed n).rdata = s.rdata := rfl
@[simp] theorem State.succeed_pending (n : Nat) : (s.succeed n).pending = s.pending := rfl
@[simp] theorem State.succeed_draws (n : Nat) : (s.succeed n).draws = s.draws := rfl

/-! ### `State.setLen` -/

@[simp] theorem State.setLen_cfg (d : Byte) : (s.setLen d).cfg = s.cfg := rfl
@[simp] theorem State.setLen_cmd (d : Byte) : (s.setLen d).cmd = s.cmd := rfl
@[simp] theorem State.setLen_len (d : Byte) : (s.setLen d).len = d := rfl
@[simp] theorem State.setLen_done (d : Byte) : (s.setLen d).done = s.done := rfl
@[simp] theorem State.setLen_ecode (d : Byte) : (s.setLen d).ecode = s.ecode := rfl
@[simp] theorem State.setLen_olen (d : Byte) : (s.setLen d).olen = s.olen := rfl
@[simp] theorem State.setLen_byteBuf (d : Byte) : (s.setLen d).byteBuf = s.byteBuf := rfl
@[simp] theorem State.setLen_nibBuf (d : Byte) : (s.setLen d).nibBuf = s.nibBuf := rfl
@[simp] theorem State.setLen_rdata (d : Byte) : (s.setLen d).rdata = s.rdata := rfl
@[simp] theorem State.setLen_pending (d : Byte) : (s.setLen d).pending = s.pending := rfl
@[simp] theorem State.setLen_draws (d : Byte) : (s.setLen d).draws = s.draws := rfl

/-! ### `State.setBytes` -/

@[simp] theorem State.setBytes_cfg (m : Memory 8) : (s.setBytes m).cfg = s.cfg := rfl
@[simp] theorem State.setBytes_cmd (m : Memory 8) : (s.setBytes m).cmd = s.cmd := rfl
@[simp] theorem State.setBytes_len (m : Memory 8) : (s.setBytes m).len = s.len := rfl
@[simp] theorem State.setBytes_done (m : Memory 8) : (s.setBytes m).done = s.done := rfl
@[simp] theorem State.setBytes_ecode (m : Memory 8) : (s.setBytes m).ecode = s.ecode := rfl
@[simp] theorem State.setBytes_olen (m : Memory 8) : (s.setBytes m).olen = s.olen := rfl
@[simp] theorem State.setBytes_byteBuf (m : Memory 8) : (s.setBytes m).byteBuf = m := rfl
@[simp] theorem State.setBytes_nibBuf (m : Memory 8) : (s.setBytes m).nibBuf = s.nibBuf := rfl
@[simp] theorem State.setBytes_rdata (m : Memory 8) : (s.setBytes m).rdata = s.rdata := rfl
@[simp] theorem State.setBytes_pending (m : Memory 8) : (s.setBytes m).pending = s.pending := rfl
@[simp] theorem State.setBytes_draws (m : Memory 8) : (s.setBytes m).draws = s.draws := rfl

/-! ### `State.setNibs` -/

@[simp] theorem State.setNibs_cfg (m : Memory 4) : (s.setNibs m).cfg = s.cfg := rfl
@[simp] theorem State.setNibs_cmd (m : Memory 4) : (s.setNibs m).cmd = s.cmd := rfl
@[simp] theorem State.setNibs_len (m : Memory 4) : (s.setNibs m).len = s.len := rfl
@[simp] theorem State.setNibs_done (m : Memory 4) : (s.setNibs m).done = s.done := rfl
@[simp] theorem State.setNibs_ecode (m : Memory 4) : (s.setNibs m).ecode = s.ecode := rfl
@[simp] theorem State.setNibs_olen (m : Memory 4) : (s.setNibs m).olen = s.olen := rfl
@[simp] theorem State.setNibs_byteBuf (m : Memory 4) : (s.setNibs m).byteBuf = s.byteBuf := rfl
@[simp] theorem State.setNibs_nibBuf (m : Memory 4) : (s.setNibs m).nibBuf = m := rfl
@[simp] theorem State.setNibs_rdata (m : Memory 4) : (s.setNibs m).rdata = s.rdata := rfl
@[simp] theorem State.setNibs_pending (m : Memory 4) : (s.setNibs m).pending = s.pending := rfl
@[simp] theorem State.setNibs_draws (m : Memory 4) : (s.setNibs m).draws = s.draws := rfl

/-! ### `State.complete` -/

@[simp] theorem State.complete_cfg (r : Option Byte) : (s.complete r).cfg = s.cfg := rfl
@[simp] theorem State.complete_cmd (r : Option Byte) : (s.complete r).cmd = s.cmd := rfl
@[simp] theorem State.complete_len (r : Option Byte) : (s.complete r).len = s.len := rfl
@[simp] theorem State.complete_done (r : Option Byte) : (s.complete r).done = s.done := rfl
@[simp] theorem State.complete_ecode (r : Option Byte) : (s.complete r).ecode = s.ecode := rfl
@[simp] theorem State.complete_olen (r : Option Byte) : (s.complete r).olen = s.olen := rfl
@[simp] theorem State.complete_byteBuf (r : Option Byte) : (s.complete r).byteBuf = s.byteBuf := rfl
@[simp] theorem State.complete_nibBuf (r : Option Byte) : (s.complete r).nibBuf = s.nibBuf := rfl
@[simp] theorem State.complete_rdata (r : Option Byte) : (s.complete r).rdata = r := rfl
@[simp] theorem State.complete_pending (r : Option Byte) : (s.complete r).pending = s.pending.tail := rfl
@[simp] theorem State.complete_draws (r : Option Byte) : (s.complete r).draws = s.draws := rfl

/-! ### `State.drawn` -/

@[simp] theorem State.drawn_cfg : (s.drawn).cfg = s.cfg := rfl
@[simp] theorem State.drawn_cmd : (s.drawn).cmd = s.cmd := rfl
@[simp] theorem State.drawn_len : (s.drawn).len = s.len := rfl
@[simp] theorem State.drawn_done : (s.drawn).done = s.done := rfl
@[simp] theorem State.drawn_ecode : (s.drawn).ecode = s.ecode := rfl
@[simp] theorem State.drawn_olen : (s.drawn).olen = s.olen := rfl
@[simp] theorem State.drawn_byteBuf : (s.drawn).byteBuf = s.byteBuf := rfl
@[simp] theorem State.drawn_nibBuf : (s.drawn).nibBuf = s.nibBuf := rfl
@[simp] theorem State.drawn_rdata : (s.drawn).rdata = s.rdata := rfl
@[simp] theorem State.drawn_pending : (s.drawn).pending = s.pending := rfl
@[simp] theorem State.drawn_draws : (s.drawn).draws = s.draws + 1 := rfl

/-! ### `State.nopBody` -/

@[simp] theorem State.nopBody_cfg : (s.nopBody).cfg = s.cfg := rfl
@[simp] theorem State.nopBody_cmd : (s.nopBody).cmd = s.cmd := rfl
@[simp] theorem State.nopBody_len : (s.nopBody).len = s.len := rfl
@[simp] theorem State.nopBody_done : (s.nopBody).done = s.done := rfl
@[simp] theorem State.nopBody_ecode : (s.nopBody).ecode = .none := rfl
@[simp] theorem State.nopBody_olen : (s.nopBody).olen = s.olen := rfl
@[simp] theorem State.nopBody_byteBuf : (s.nopBody).byteBuf = s.byteBuf := rfl
@[simp] theorem State.nopBody_nibBuf : (s.nopBody).nibBuf = s.nibBuf := rfl
@[simp] theorem State.nopBody_rdata : (s.nopBody).rdata = s.rdata := rfl
@[simp] theorem State.nopBody_pending : (s.nopBody).pending = s.pending := rfl
@[simp] theorem State.nopBody_draws : (s.nopBody).draws = s.draws := rfl

/-! ### `State.clearBody` -/

@[simp] theorem State.clearBody_cfg : (s.clearBody).cfg = s.cfg := rfl
@[simp] theorem State.clearBody_cmd : (s.clearBody).cmd = s.cmd := rfl
@[simp] theorem State.clearBody_len : (s.clearBody).len = 0x00 := rfl
@[simp] theorem State.clearBody_done : (s.clearBody).done = s.done := rfl
@[simp] theorem State.clearBody_ecode : (s.clearBody).ecode = .none := rfl
@[simp] theorem State.clearBody_olen : (s.clearBody).olen = 0x00 := rfl
@[simp] theorem State.clearBody_byteBuf : (s.clearBody).byteBuf = Memory.zeros := rfl
@[simp] theorem State.clearBody_nibBuf : (s.clearBody).nibBuf = Memory.zeros := rfl
@[simp] theorem State.clearBody_rdata : (s.clearBody).rdata = s.rdata := rfl
@[simp] theorem State.clearBody_pending : (s.clearBody).pending = s.pending := rfl
@[simp] theorem State.clearBody_draws : (s.clearBody).draws = s.draws := rfl

/-! ### `State.afterReset` -/

@[simp] theorem State.afterReset_cfg : (s.afterReset).cfg = s.cfg := rfl
@[simp] theorem State.afterReset_cmd : (s.afterReset).cmd = 0x00 := rfl
@[simp] theorem State.afterReset_len : (s.afterReset).len = 0x00 := rfl
@[simp] theorem State.afterReset_done : (s.afterReset).done = false := rfl
@[simp] theorem State.afterReset_ecode : (s.afterReset).ecode = .none := rfl
@[simp] theorem State.afterReset_olen : (s.afterReset).olen = 0x00 := rfl
@[simp] theorem State.afterReset_byteBuf : (s.afterReset).byteBuf = Memory.zeros := rfl
@[simp] theorem State.afterReset_nibBuf : (s.afterReset).nibBuf = Memory.zeros := rfl
@[simp] theorem State.afterReset_rdata : (s.afterReset).rdata = none := rfl
@[simp] theorem State.afterReset_pending : (s.afterReset).pending = s.pending.tail := rfl
@[simp] theorem State.afterReset_draws : (s.afterReset).draws = s.draws := rfl

/-! ### `State.resetOf` -/

@[simp] theorem State.resetOf_cfg (c : Config) : (State.resetOf c).cfg = c := rfl
@[simp] theorem State.resetOf_cmd (c : Config) : (State.resetOf c).cmd = 0x00 := rfl
@[simp] theorem State.resetOf_len (c : Config) : (State.resetOf c).len = 0x00 := rfl
@[simp] theorem State.resetOf_done (c : Config) : (State.resetOf c).done = false := rfl
@[simp] theorem State.resetOf_ecode (c : Config) : (State.resetOf c).ecode = .none := rfl
@[simp] theorem State.resetOf_olen (c : Config) : (State.resetOf c).olen = 0x00 := rfl
@[simp] theorem State.resetOf_byteBuf (c : Config) : (State.resetOf c).byteBuf = Memory.zeros := rfl
@[simp] theorem State.resetOf_nibBuf (c : Config) : (State.resetOf c).nibBuf = Memory.zeros := rfl
@[simp] theorem State.resetOf_rdata (c : Config) : (State.resetOf c).rdata = none := rfl
@[simp] theorem State.resetOf_pending (c : Config) : (State.resetOf c).pending = [] := rfl
@[simp] theorem State.resetOf_draws (c : Config) : (State.resetOf c).draws = 0 := rfl

/-! ### The views depend only on their own fields -/

theorem State.byteCell_eq (j : Nat) : s.byteCell j = s.byteBuf.read j := rfl
theorem State.nibCell_eq (k : Nat) : s.nibCell k = s.nibBuf.read k := rfl
theorem State.count_eq : s.count = s.len.toNat := rfl

@[simp] theorem State.issue_byteCell (c : Byte) (j : Nat) : (s.issue c).byteCell j = s.byteCell j := rfl
@[simp] theorem State.issue_nibCell (c : Byte) (k : Nat) : (s.issue c).nibCell k = s.nibCell k := rfl
@[simp] theorem State.issue_count (c : Byte) : (s.issue c).count = s.count := rfl
@[simp] theorem State.fail_byteCell (e : ECode) (j : Nat) : (s.fail e).byteCell j = s.byteCell j := rfl
@[simp] theorem State.fail_nibCell (e : ECode) (k : Nat) : (s.fail e).nibCell k = s.nibCell k := rfl
@[simp] theorem State.fail_count (e : ECode) : (s.fail e).count = s.count := rfl
@[simp] theorem State.succeed_byteCell (n : Nat) (j : Nat) : (s.succeed n).byteCell j = s.byteCell j := rfl
@[simp] theorem State.succeed_nibCell (n : Nat) (k : Nat) : (s.succeed n).nibCell k = s.nibCell k := rfl
@[simp] theorem State.succeed_count (n : Nat) : (s.succeed n).count = s.count := rfl
@[simp] theorem State.setLen_byteCell (d : Byte) (j : Nat) : (s.setLen d).byteCell j = s.byteCell j := rfl
@[simp] theorem State.setLen_nibCell (d : Byte) (k : Nat) : (s.setLen d).nibCell k = s.nibCell k := rfl
@[simp] theorem State.setLen_status (d : Byte) : (s.setLen d).status = s.status := rfl
@[simp] theorem State.setBytes_nibCell (m : Memory 8) (k : Nat) : (s.setBytes m).nibCell k = s.nibCell k := rfl
@[simp] theorem State.setBytes_count (m : Memory 8) : (s.setBytes m).count = s.count := rfl
@[simp] theorem State.setBytes_status (m : Memory 8) : (s.setBytes m).status = s.status := rfl
@[simp] theorem State.setNibs_byteCell (m : Memory 4) (j : Nat) : (s.setNibs m).byteCell j = s.byteCell j := rfl
@[simp] theorem State.setNibs_count (m : Memory 4) : (s.setNibs m).count = s.count := rfl
@[simp] theorem State.setNibs_status (m : Memory 4) : (s.setNibs m).status = s.status := rfl
@[simp] theorem State.complete_byteCell (r : Option Byte) (j : Nat) : (s.complete r).byteCell j = s.byteCell j := rfl
@[simp] theorem State.complete_nibCell (r : Option Byte) (k : Nat) : (s.complete r).nibCell k = s.nibCell k := rfl
@[simp] theorem State.complete_count (r : Option Byte) : (s.complete r).count = s.count := rfl
@[simp] theorem State.complete_status (r : Option Byte) : (s.complete r).status = s.status := rfl
@[simp] theorem State.drawn_byteCell (j : Nat) : (s.drawn).byteCell j = s.byteCell j := rfl
@[simp] theorem State.drawn_nibCell (k : Nat) : (s.drawn).nibCell k = s.nibCell k := rfl
@[simp] theorem State.drawn_count : (s.drawn).count = s.count := rfl
@[simp] theorem State.drawn_status : (s.drawn).status = s.status := rfl
@[simp] theorem State.nopBody_byteCell (j : Nat) : (s.nopBody).byteCell j = s.byteCell j := rfl
@[simp] theorem State.nopBody_nibCell (k : Nat) : (s.nopBody).nibCell k = s.nibCell k := rfl
@[simp] theorem State.nopBody_count : (s.nopBody).count = s.count := rfl

@[simp] theorem State.setBytes_byteCell (m : Memory 8) (j : Nat) : (s.setBytes m).byteCell j = m.read j := rfl
@[simp] theorem State.setNibs_nibCell (m : Memory 4) (k : Nat) : (s.setNibs m).nibCell k = m.read k := rfl
@[simp] theorem State.setLen_count (d : Byte) : (s.setLen d).count = d.toNat := rfl

end Sys2Proof.Machine
end

