-- ==== Sys2Proof/Laws/Operands.lean ====
section
/-! SUPPORT. The address map, address by address (20_memory.md R42). -/

namespace Sys2Proof.Machine

variable (c : Config)

@[simp] theorem regAt_cmdAddr : regAt c cmdAddr = .cmd := rfl
@[simp] theorem regAt_lenAddr : regAt c lenAddr = .len := rfl
@[simp] theorem regAt_statusAddr : regAt c statusAddr = .status := rfl
@[simp] theorem regAt_olenAddr : regAt c olenAddr = .olen := rfl
@[simp] theorem regAt_capAddr : regAt c capAddr = .cap := rfl

/-- Above the five registers only the windows decide. -/
theorem regAt_of_le {a : Byte} (h : 5 ≤ a.toNat) :
    regAt c a =
      if byteBase ≤ a.toNat ∧ a.toNat < byteBase + c.bmax then .byte (a.toNat - byteBase)
      else if nibBase ≤ a.toNat ∧ a.toNat < nibBase + c.nmax then .nib (a.toNat - nibBase)
      else .reserved := by
  have hne : ∀ n : Nat, n < 5 → a ≠ BitVec.ofNat 8 n := by
    rintro n hn rfl
    rw [BitVec.toNat_ofNat] at h
    omega
  have h0 : a ≠ cmdAddr := hne 0 (by decide)
  have h1 : a ≠ lenAddr := hne 1 (by decide)
  have h2 : a ≠ statusAddr := hne 2 (by decide)
  have h3 : a ≠ olenAddr := hne 3 (by decide)
  have h4 : a ≠ capAddr := hne 4 (by decide)
  rw [regAt, if_neg h0, if_neg h1, if_neg h2, if_neg h3, if_neg h4]

variable {c}

theorem regAt_of_byte {a : Byte} {j : Nat} (hj : j < c.bmax) (ha : a.toNat = byteBase + j) : regAt c a = .byte j := by
  have hb : byteBase = 0x40 := rfl
  rw [regAt_of_le c (by omega), if_pos (by omega), ha, Nat.add_sub_cancel_left]

theorem regAt_of_nib {a : Byte} {k : Nat} (hc : c.wf) (hk : k < c.nmax) (ha : a.toNat = nibBase + k) :
    regAt c a = .nib k := by
  have hb : byteBase = 0x40 := rfl
  have hn : nibBase = 0x80 := rfl
  have := hc.2
  rw [regAt_of_le c (by omega), if_neg (by omega), if_pos (by omega), ha, Nat.add_sub_cancel_left]

/-- The addresses that 20_memory.md R42 marks reserved or unimplemented. -/
theorem regAt_of_reserved {a : Byte} (hc : c.wf)
    (h : (0x05 ≤ a.toNat ∧ a.toNat < 0x40) ∨ (0x40 + c.bmax ≤ a.toNat ∧ a.toNat < 0x80) ∨
      0x80 + c.nmax ≤ a.toNat) : regAt c a = .reserved := by
  have hb : byteBase = 0x40 := rfl
  have hn : nibBase = 0x80 := rfl
  have := hc.2
  rw [regAt_of_le c (by omega), if_neg (by omega), if_neg (by omega)]

theorem toNat_byteAddr {j : Nat} (h : j < 64) : (byteAddr j).toNat = byteBase + j := by
  have hb : byteBase = 0x40 := rfl
  rw [byteAddr, BitVec.toNat_ofNat, Nat.mod_eq_of_lt (by omega)]

theorem toNat_nibAddr {k : Nat} (h : k < 128) : (nibAddr k).toNat = nibBase + k := by
  have hn : nibBase = 0x80 := rfl
  rw [nibAddr, BitVec.toNat_ofNat, Nat.mod_eq_of_lt (by omega)]

theorem regAt_byteAddr {j : Nat} (hc : c.wf) (hj : j < c.bmax) : regAt c (byteAddr j) = .byte j :=
  regAt_of_byte hj (toNat_byteAddr (by have := hc.2; omega))

theorem regAt_nibAddr {k : Nat} (hc : c.wf) (hk : k < c.nmax) : regAt c (nibAddr k) = .nib k :=
  regAt_of_nib hc hk (toNat_nibAddr (by have := hc.2; rw [Config.nmax] at hk; omega))

/-- The address that selects an element: the map names no element twice. -/
theorem regAt_eq_cmd {a : Byte} (h : regAt c a = .cmd) : a = cmdAddr := by
  by_contra hne
  rw [regAt, if_neg hne] at h
  split_ifs at h

theorem regAt_eq_len {a : Byte} (h : regAt c a = .len) : a = lenAddr := by
  by_contra hne
  rw [regAt, if_neg hne] at h
  split_ifs at h

theorem regAt_eq_byte {a : Byte} {j : Nat} (h : regAt c a = .byte j) : a.toNat = byteBase + j ∧ j < c.bmax := by
  unfold regAt at h
  split_ifs at h with h1 h2 h3 h4 h5 h6
  obtain rfl := Target.byte.inj h
  omega

theorem regAt_eq_nib {a : Byte} {k : Nat} (h : regAt c a = .nib k) : a.toNat = nibBase + k ∧ k < c.nmax := by
  unfold regAt at h
  split_ifs at h with h1 h2 h3 h4 h5 h6 h7
  obtain rfl := Target.nib.inj h
  omega

end Sys2Proof.Machine
end

