-- ==== Sys2Proof/Laws/Ops.lean ====
section
/-! SUPPORT. For each shared operation, once, everything it can do. -/

namespace Sys2Proof.Machine

variable (s : State)

/-! ### PACK and UNPACK bodies -/

theorem State.packBody_odd (zs : Bool) (h : s.count % 2 = 1) : s.packBody zs = s.fail .invalidLength := by
  rw [packBody, if_pos h]

theorem State.packBody_range (zs : Bool) (h : s.count % 2 = 0) (hn : s.cfg.nmax < s.count) :
    s.packBody zs = s.fail .lengthRange := by
  rw [packBody, if_neg (by omega), if_pos hn]

theorem State.packBody_ok (zs : Bool) (h : s.count % 2 = 0) (hn : s.count ≤ s.cfg.nmax) :
    s.packBody zs = ((s.setBytes (Memory.table s.cfg.bmax s.packedByte)).setNibs
      (if zs then Memory.zeros else s.nibBuf)).succeed (s.count / 2) := by
  rw [packBody, if_neg (by omega), if_neg (by omega)]

/-- Everything the body of PACK can do. -/
theorem State.packBody_cases (zs : Bool) :
    (s.count % 2 = 1 ∧ s.packBody zs = s.fail .invalidLength) ∨
    (s.count % 2 = 0 ∧ s.cfg.nmax < s.count ∧ s.packBody zs = s.fail .lengthRange) ∨
    (s.count % 2 = 0 ∧ s.count ≤ s.cfg.nmax ∧
      s.packBody zs = ((s.setBytes (Memory.table s.cfg.bmax s.packedByte)).setNibs
        (if zs then Memory.zeros else s.nibBuf)).succeed (s.count / 2)) := by
  rcases Nat.mod_two_eq_zero_or_one s.count with h | h
  · rcases Nat.lt_or_ge s.cfg.nmax s.count with hn | hn
    · exact .inr (.inl ⟨h, hn, s.packBody_range zs h hn⟩)
    · exact .inr (.inr ⟨h, hn, s.packBody_ok zs h hn⟩)
  · exact .inl ⟨h, s.packBody_odd zs h⟩

theorem State.unpackBody_range (zs : Bool) (h : s.cfg.bmax < s.count) :
    s.unpackBody zs = s.fail .lengthRange := by
  rw [unpackBody, if_pos h]

theorem State.unpackBody_ok (zs : Bool) (h : s.count ≤ s.cfg.bmax) :
    s.unpackBody zs = ((s.setNibs (Memory.table s.cfg.nmax s.unpackedNibble)).setBytes
      (if zs then Memory.zeros else s.byteBuf)).succeed (2 * s.count) := by
  rw [unpackBody, if_neg (by omega)]

/-- Everything the body of UNPACK can do. -/
theorem State.unpackBody_cases (zs : Bool) :
    (s.cfg.bmax < s.count ∧ s.unpackBody zs = s.fail .lengthRange) ∨
    (s.count ≤ s.cfg.bmax ∧
      s.unpackBody zs = ((s.setNibs (Memory.table s.cfg.nmax s.unpackedNibble)).setBytes
        (if zs then Memory.zeros else s.byteBuf)).succeed (2 * s.count)) := by
  rcases Nat.lt_or_ge s.cfg.bmax s.count with h | h
  · exact .inl ⟨h, s.unpackBody_range zs h⟩
  · exact .inr ⟨h, s.unpackBody_ok zs h⟩

@[simp] theorem State.issue_packedByte (c : Byte) (j : Nat) : (s.issue c).packedByte j = s.packedByte j := rfl

@[simp] theorem State.issue_unpackedNibble (c : Byte) (k : Nat) :
    (s.issue c).unpackedNibble k = s.unpackedNibble k := rfl

/-- What PACK leaves in a cell depends on LEN and that lane's two nibbles alone (41_nibble_packing.md R97, R100). -/
theorem State.packedByte_congr {s t : State} {j : Nat} (hl : t.len = s.len)
    (h : j < s.count / 2 → t.nibCell (2 * j) = s.nibCell (2 * j) ∧ t.nibCell (2 * j + 1) = s.nibCell (2 * j + 1)) :
    t.packedByte j = s.packedByte j := by
  have hc : t.count = s.count := congrArg BitVec.toNat hl
  unfold packedByte
  rw [hc]
  by_cases hj : j < s.count / 2
  · rw [if_pos hj, if_pos hj, (h hj).1, (h hj).2]
  · rw [if_neg hj, if_neg hj]

/-- What UNPACK leaves in a cell depends on LEN and that lane's byte alone (41_nibble_packing.md R97, R100). -/
theorem State.unpackedNibble_congr {s t : State} {k : Nat} (hl : t.len = s.len)
    (h : k / 2 < s.count → t.byteCell (k / 2) = s.byteCell (k / 2)) : t.unpackedNibble k = s.unpackedNibble k := by
  have hc : t.count = s.count := congrArg BitVec.toNat hl
  unfold unpackedNibble
  rw [hc]
  by_cases hk : k < 2 * s.count
  · rw [if_pos hk, if_pos hk, h (by omega)]
  · rw [if_neg hk, if_neg hk]

/-- The lanes of PACK: byte `i` is nibbles `2i` and `2i + 1` (41_nibble_packing.md R100). -/
theorem State.packedByte_lane {i : Nat} (h : i < s.count / 2) :
    s.packedByte i = packByte (s.nibCell (2 * i)) (s.nibCell (2 * i + 1)) := if_pos h

theorem State.packedByte_fill {i : Nat} (h : s.count / 2 ≤ i) : s.packedByte i = 0 := if_neg (by omega)

/-- The high lane of UNPACK: nibble `2i` is the high half of byte `i` (41_nibble_packing.md R100). -/
theorem State.unpackedNibble_high {i : Nat} (h : i < s.count) :
    s.unpackedNibble (2 * i) = highNibble (s.byteCell i) := by
  rw [unpackedNibble, if_pos (by omega), if_pos (by omega), show 2 * i / 2 = i by omega]

/-- The low lane of UNPACK: nibble `2i + 1` is the low half of byte `i` (41_nibble_packing.md R100). -/
theorem State.unpackedNibble_low {i : Nat} (h : i < s.count) :
    s.unpackedNibble (2 * i + 1) = lowNibble (s.byteCell i) := by
  rw [unpackedNibble, if_pos (by omega), if_neg (by omega), show (2 * i + 1) / 2 = i by omega]

theorem State.unpackedNibble_fill {k : Nat} (h : 2 * s.count ≤ k) : s.unpackedNibble k = 0 := if_neg (by omega)

/-- What no command body touches: the instance, CMD, DONE and the model's own fields. -/
theorem State.perform_frame (k : Command) :
    (s.perform k).cfg = s.cfg ∧ (s.perform k).cmd = s.cmd ∧ (s.perform k).done = s.done ∧
      (s.perform k).rdata = s.rdata ∧ (s.perform k).pending = s.pending ∧ (s.perform k).draws = s.draws := by
  cases k with
  | nop zs => exact ⟨rfl, rfl, rfl, rfl, rfl, rfl⟩
  | clear zs => exact ⟨rfl, rfl, rfl, rfl, rfl, rfl⟩
  | pack zs =>
    rw [perform]
    rcases s.packBody_cases zs with ⟨_, e⟩ | ⟨_, _, e⟩ | ⟨_, _, e⟩ <;> rw [e] <;> exact ⟨rfl, rfl, rfl, rfl, rfl, rfl⟩
  | unpack zs =>
    rw [perform]
    rcases s.unpackBody_cases zs with ⟨_, e⟩ | ⟨_, e⟩ <;> rw [e] <;> exact ⟨rfl, rfl, rfl, rfl, rfl, rfl⟩

/-! ### A write to CMD -/

theorem State.writeCmd_illegal {c : Byte} (h : cmdRsv c ≠ 0) : s.writeCmd c = (s.issue c).fail .illegalCmd := by
  rw [writeCmd, decodeCommand_of_rsv h]

theorem State.writeCmd_encodeCommand (k : Command) :
    s.writeCmd (encodeCommand k) = (s.issue (encodeCommand k)).perform k := by
  rw [writeCmd, decodeCommand_encodeCommand]

/-- Everything a write to CMD can do: report an illegal byte, or perform the command whose byte it is. -/
theorem State.writeCmd_cases (c : Byte) :
    (cmdRsv c ≠ 0 ∧ s.writeCmd c = (s.issue c).fail .illegalCmd) ∨
    ∃ k, c = encodeCommand k ∧ s.writeCmd c = (s.issue c).perform k := by
  by_cases h : cmdRsv c = 0
  · obtain ⟨k, hk⟩ := decodeCommand_of_not_rsv h
    have := encodeCommand_of_decodeCommand hk
    exact .inr ⟨k, this.symm, by rw [writeCmd, hk]⟩
  · exact .inl ⟨h, s.writeCmd_illegal h⟩

/-- What a write to CMD does whatever the byte: CMD keeps it, DONE is 1, the instance and the model's own fields stay. -/
theorem State.writeCmd_frame (c : Byte) :
    (s.writeCmd c).cfg = s.cfg ∧ (s.writeCmd c).cmd = c ∧ (s.writeCmd c).done = true ∧
      (s.writeCmd c).rdata = s.rdata ∧ (s.writeCmd c).pending = s.pending ∧ (s.writeCmd c).draws = s.draws := by
  rcases s.writeCmd_cases c with ⟨_, e⟩ | ⟨k, _, e⟩ <;> rw [e]
  · exact ⟨rfl, rfl, rfl, rfl, rfl, rfl⟩
  · exact (s.issue c).perform_frame k

/-! ### One bus address -/

/-- What a read returns depends on the registers and buffers alone. -/
theorem State.busRead_congr {s t : State} (hcfg : t.cfg = s.cfg) (hcmd : t.cmd = s.cmd) (hlen : t.len = s.len)
    (hdone : t.done = s.done) (hecode : t.ecode = s.ecode) (holen : t.olen = s.olen)
    (hbytes : t.byteBuf = s.byteBuf) (hnibs : t.nibBuf = s.nibBuf) (a : Byte) : t.busRead a = s.busRead a := by
  unfold busRead status err byteCell nibCell
  rw [hcfg, hcmd, hlen, hdone, hecode, holen, hbytes, hnibs]

theorem State.busRead_byteAddr {j : Nat} (hc : s.cfg.wf) (hj : j < s.cfg.bmax) :
    s.busRead (byteAddr j) = s.byteCell j := by
  rw [busRead, regAt_byteAddr hc hj]

theorem State.busRead_nibAddr {k : Nat} (hc : s.cfg.wf) (hk : k < s.cfg.nmax) :
    s.busRead (nibAddr k) = zext8 (s.nibCell k) := by
  rw [busRead, regAt_nibAddr hc hk]

theorem State.busWrite_cmdAddr (d : Byte) : s.busWrite cmdAddr d = s.writeCmd d := rfl

theorem State.busWrite_lenAddr (d : Byte) : s.busWrite lenAddr d = s.setLen d := rfl

theorem State.busWrite_byteAddr {j : Nat} (d : Byte) (hc : s.cfg.wf) (hj : j < s.cfg.bmax) :
    s.busWrite (byteAddr j) d = s.setBytes (s.byteBuf.write j d) := by
  rw [busWrite, regAt_byteAddr hc hj]

theorem State.busWrite_nibAddr {k : Nat} (d : Byte) (hc : s.cfg.wf) (hk : k < s.cfg.nmax) :
    s.busWrite (nibAddr k) d = s.setNibs (s.nibBuf.write k (lowNibble d)) := by
  rw [busWrite, regAt_nibAddr hc hk]

/-- Everything a bus write can do. -/
theorem State.busWrite_cases (a d : Byte) :
    (a = cmdAddr ∧ s.busWrite a d = s.writeCmd d) ∨
    (a = lenAddr ∧ s.busWrite a d = s.setLen d) ∨
    (∃ j, a.toNat = byteBase + j ∧ j < s.cfg.bmax ∧ s.busWrite a d = s.setBytes (s.byteBuf.write j d)) ∨
    (∃ k, a.toNat = nibBase + k ∧ k < s.cfg.nmax ∧ s.busWrite a d = s.setNibs (s.nibBuf.write k (lowNibble d))) ∨
    s.busWrite a d = s := by
  unfold busWrite
  split <;> rename_i h
  · exact .inl ⟨regAt_eq_cmd h, rfl⟩
  · exact .inr (.inl ⟨regAt_eq_len h, rfl⟩)
  · exact .inr (.inr (.inr (.inr rfl)))
  · exact .inr (.inr (.inr (.inr rfl)))
  · exact .inr (.inr (.inr (.inr rfl)))
  · exact .inr (.inr (.inl ⟨_, (regAt_eq_byte h).1, (regAt_eq_byte h).2, rfl⟩))
  · exact .inr (.inr (.inr (.inl ⟨_, (regAt_eq_nib h).1, (regAt_eq_nib h).2, rfl⟩)))
  · exact .inr (.inr (.inr (.inr rfl)))

/-- What no bus write touches: the instance and the model's own fields. -/
theorem State.busWrite_frame (a d : Byte) :
    (s.busWrite a d).cfg = s.cfg ∧ (s.busWrite a d).rdata = s.rdata ∧ (s.busWrite a d).pending = s.pending ∧
      (s.busWrite a d).draws = s.draws := by
  rcases s.busWrite_cases a d with ⟨_, e⟩ | ⟨_, e⟩ | ⟨_, _, _, e⟩ | ⟨_, _, _, e⟩ | e <;> rw [e]
  · obtain ⟨h1, _, _, h4, h5, h6⟩ := s.writeCmd_frame d
    exact ⟨h1, h4, h5, h6⟩
  all_goals exact ⟨rfl, rfl, rfl, rfl⟩

/-- A write to any address but CMD leaves CMD, DONE, ECODE and OLEN (40_register_access.md R86). -/
theorem State.busWrite_frame_of_ne {a : Byte} (h : a ≠ cmdAddr) (d : Byte) :
    (s.busWrite a d).cmd = s.cmd ∧ (s.busWrite a d).done = s.done ∧ (s.busWrite a d).ecode = s.ecode ∧
      (s.busWrite a d).olen = s.olen := by
  rcases s.busWrite_cases a d with ⟨h', _⟩ | ⟨_, e⟩ | ⟨_, _, _, e⟩ | ⟨_, _, _, e⟩ | e
  · exact absurd h' h
  all_goals rw [e]; exact ⟨rfl, rfl, rfl, rfl⟩

/-! ### STATUS -/

/-- STATUS depends on DONE and ECODE alone. -/
theorem State.status_congr {s t : State} (hd : t.done = s.done) (he : t.ecode = s.ecode) : t.status = s.status := by
  unfold status err
  rw [hd, he]

@[simp] theorem ECode.ofCode_code (e : ECode) : ECode.ofCode e.code = e := by cases e <;> rfl

@[simp] theorem ECode.code_ofCode (c : BitVec 2) : (ECode.ofCode c).code = c := by
  revert c
  decide

theorem ECode.code_eq_zero_iff (e : ECode) : e.code = 0 ↔ e = .none := by
  cases e <;> decide

end Sys2Proof.Machine
end

