-- ==== Sys2Proof/Laws/PerInstr.lean ====
section
/-! SUPPORT. Statements made for every instruction, one lemma per constructor. -/

namespace Sys2Proof.Laws

/-- The number of bits of a format (30_encoding.md R60). -/
def formatBits : Format → Nat
  | .bus => 17
  | .cmd8 => 8

/-- The encoding of the instruction fits its format, and the bus access that carries it is a read only for RD. -/
def EncodingFits.Statement (i : Instr) : Prop :=
  (encode i).2 < 2 ^ formatBits (encode i).1 ∧ (busWe (busWord i) = false ↔ ∃ a, i = .rd a)

theorem EncodingFits.rd (a : Byte) : EncodingFits.Statement (.rd a) :=
  ⟨BitVec.isLt _, by simp [busWord]⟩

theorem EncodingFits.wr (a d : Byte) : EncodingFits.Statement (.wr a d) :=
  ⟨BitVec.isLt _, by simp [busWord]⟩

theorem EncodingFits.nop (zs : Bool) : EncodingFits.Statement (.nop zs) :=
  ⟨BitVec.isLt _, by simp [busWord, cmdAccess]⟩

theorem EncodingFits.pack (zs : Bool) : EncodingFits.Statement (.pack zs) :=
  ⟨BitVec.isLt _, by simp [busWord, cmdAccess]⟩

theorem EncodingFits.unpack (zs : Bool) : EncodingFits.Statement (.unpack zs) :=
  ⟨BitVec.isLt _, by simp [busWord, cmdAccess]⟩

theorem EncodingFits.clear (zs : Bool) : EncodingFits.Statement (.clear zs) :=
  ⟨BitVec.isLt _, by simp [busWord, cmdAccess]⟩

end Sys2Proof.Laws
end

