-- ==== Sys2Proof/Laws/Step.lean ====
section
/-! SUPPORT. The equations of `exec` and `step`, and everything a step can do. -/

namespace Sys2Proof.Machine

variable (s : State)

theorem exec_rd (a : Byte) : exec (.rd a) s = .next (s.complete (some (s.busRead a))) := rfl

theorem exec_wr (a d : Byte) : exec (.wr a d) s = .next ((s.busWrite a d).complete none) := rfl

theorem exec_nop (zs : Bool) :
    exec (.nop zs) s = .next (((s.issue (encodeCommand (.nop zs))).perform (.nop zs)).complete none) := rfl

theorem exec_pack (zs : Bool) :
    exec (.pack zs) s = .next (((s.issue (encodeCommand (.pack zs))).perform (.pack zs)).complete none) := rfl

theorem exec_unpack (zs : Bool) :
    exec (.unpack zs) s = .next (((s.issue (encodeCommand (.unpack zs))).perform (.unpack zs)).complete none) := rfl

theorem exec_clear (zs : Bool) :
    exec (.clear zs) s = .next (((s.issue (encodeCommand (.clear zs))).perform (.clear zs)).complete none) := rfl

/-- A command is the write of its byte to CMD (41_nibble_packing.md R90). -/
theorem exec_command (k : Command) : exec k.instr s = exec (.wr cmdAddr (encodeCommand k)) s := by
  rw [exec_wr, State.busWrite_cmdAddr, State.writeCmd_encodeCommand]
  cases k <;> rfl

variable {s}

theorem step_of_access {w : BusWord} {rest : List HostEvent} (h : s.pending = .access w :: rest) :
    step s = exec (decodeBus w) s := by
  rw [step, State.nextEvent, h]
  rfl

theorem step_of_reset {rest : List HostEvent} (h : s.pending = .reset :: rest) : step s = .next s.afterReset := by
  rw [step, State.nextEvent, h]
  rfl

theorem step_of_accessInReset {w : BusWord} {rest : List HostEvent} (h : s.pending = .accessInReset w :: rest) :
    step s = .next (s.ignoreAccess w) := by
  rw [step, State.nextEvent, h]
  rfl

theorem step_of_idle (h : s.pending = []) : step s = .next s := by
  rw [step, State.nextEvent, h]
  rfl

/-- Everything an access not performed can do. -/
theorem State.ignoreAccess_cases (w : BusWord) :
    s.ignoreAccess w = s.complete none ∨
    s.ignoreAccess w = (s.complete (some (Config.readInReset s.draws))).drawn := by
  unfold ignoreAccess decodeBus
  cases busWe w
  · exact .inr rfl
  · exact .inl rfl

/-- Everything a step can do: hold, perform a read or a write, reset, or leave an access unperformed. -/
theorem step_cases {t : State} (h : step s = .next t) :
    (s.pending = [] ∧ t = s) ∨
    (∃ w rest a, s.pending = .access w :: rest ∧ decodeBus w = .rd a ∧ t = s.complete (some (s.busRead a))) ∨
    (∃ w rest a d, s.pending = .access w :: rest ∧ decodeBus w = .wr a d ∧ t = (s.busWrite a d).complete none) ∨
    (∃ rest, s.pending = .reset :: rest ∧ t = s.afterReset) ∨
    (∃ w rest, s.pending = .accessInReset w :: rest ∧ t = s.ignoreAccess w) := by
  match hp : s.pending with
  | [] =>
    rw [step_of_idle hp] at h
    cases h
    exact .inl ⟨rfl, rfl⟩
  | .reset :: rest =>
    rw [step_of_reset hp] at h
    cases h
    exact .inr (.inr (.inr (.inl ⟨_, rfl, rfl⟩)))
  | .accessInReset w :: rest =>
    rw [step_of_accessInReset hp] at h
    cases h
    exact .inr (.inr (.inr (.inr ⟨_, _, rfl, rfl⟩)))
  | .access w :: rest =>
    rw [step_of_access hp] at h
    cases hw : busWe w
    · have hd : decodeBus w = .rd (busAddr w) := by rw [decodeBus, hw]; rfl
      rw [hd, exec_rd] at h
      cases h
      exact .inr (.inl ⟨_, _, _, rfl, hd, rfl⟩)
    · have hd : decodeBus w = .wr (busAddr w) (busData w) := by rw [decodeBus, hw]; rfl
      rw [hd, exec_wr] at h
      cases h
      exact .inr (.inr (.inl ⟨_, _, _, _, rfl, hd, rfl⟩))

/-- A run goes on from a step's next state. -/
theorem runSteps_succ (n : Nat) {t : State} (h : step s = .next t) : runSteps (n + 1) s = runSteps n t := by
  rw [runSteps, h]

theorem runSteps_one : runSteps 1 s = step s := by
  rw [runSteps]
  cases step s <;> rfl

end Sys2Proof.Machine
end

