-- ==== Sys2Proof/Tests/Slice0.lean ====
section
/-! SUPPORT. The model's own tests: ill-formed terms refused, words written out from 30_encoding.md, vectors of
95_test_vectors.md (each named in its test's docstring), and for every statement with hypotheses a witness that meets
them. -/

namespace Sys2Proof.Tests

open Sys2Proof.Machine

/-- The next state of an outcome, if there is one. -/
def nextState : Host.Outcome State Fault Refusal → Option State
  | .next t => some t
  | .fault _ => none
  | .refused _ => none

/-- The default instance after reset with LEN, the first nibble cells and the first byte cells as given. -/
def loaded (len : Byte) (nibs : List Nibble) (bytes : List Byte) : State :=
  { State.reset with
    len := len
    nibBuf := Memory.table 32 fun k => nibs.getD k 0
    byteBuf := Memory.table 16 fun j => bytes.getD j 0 }

/-- The same of an instance with another capacity. -/
def loadedWith (bmax : Nat) (len : Byte) (nibs : List Nibble) (bytes : List Byte) : State :=
  { State.resetOf { bmax := bmax } with
    len := len
    nibBuf := Memory.table (2 * bmax) fun k => nibs.getD k 0
    byteBuf := Memory.table bmax fun j => bytes.getD j 0 }

/-- The reset state with events presented. -/
def presenting (es : List HostEvent) : State := { State.reset with pending := es }

/-! ### Ill-formed terms -/

theorem test_config_zero_is_ill_formed : ¬ (Config.mk 0).wf := by decide
theorem test_config_65_is_ill_formed : ¬ (Config.mk 65).wf := by decide
theorem test_config_standard_is_well_formed : Config.standard.wf ∧ (Config.mk 1).wf ∧ (Config.mk 64).wf := by decide
theorem test_loadN_past_end_is_ill_formed : (Pseudo.loadN 31 [1, 2]).wellFormed Config.standard = false := by decide
theorem test_loadB_empty_is_ill_formed : (Pseudo.loadB 0 []).wellFormed Config.standard = false := by decide
theorem test_readB_past_end_is_ill_formed : (Pseudo.readB 15 2).wellFormed Config.standard = false := by decide
theorem test_readN_none_is_ill_formed : (Pseudo.readN 0 0).wellFormed Config.standard = false := by decide

/-! ### Decoding: one word per constructor, from the bit fields of 30_encoding.md R60, R61 and R67 -/

/-- `R:40` of program P1. -/
theorem test_decode_rd : decode .bus 0b0_01000000_00000000 = .ok (.rd 0x40) := by decide
/-- `W:81:1C` of program P3. -/
theorem test_decode_wr : decode .bus 0b1_10000001_00011100 = .ok (.wr 0x81 0x1C) := by decide
theorem test_decode_nop : decode .cmd8 0b00000_0_00 = .ok (.nop false) := by decide
theorem test_decode_pack : decode .cmd8 0b00000_1_01 = .ok (.pack true) := by decide
theorem test_decode_unpack : decode .cmd8 0b00000_0_10 = .ok (.unpack false) := by decide
theorem test_decode_clear : decode .cmd8 0b00000_1_11 = .ok (.clear true) := by decide
theorem test_decode_illegal : decode .cmd8 0x0D = .error (.illegalCmd 0x0D) := by decide
theorem test_decode_too_wide :
    decode .cmd8 0x100 = .error .cmdTooWide ∧ decode .bus 0x20000 = .error .busTooWide := by decide

/-! ### One step of each instruction -/

/-- RA1, and RA7's `RD 3F`. -/
theorem test_rd_cap_and_reserved :
    (nextState (exec (.rd 0x04) State.reset)).map (·.rdata) = some (some 0x10) ∧
    (nextState (exec (.rd 0x3F) State.reset)).map (·.rdata) = some (some 0x00) := by decide

/-- STATUS after an INVALID_LENGTH reads 0x07 (95 section 3.2, 90_conflicts.md C8). -/
theorem test_rd_status_invalid_length :
    (nextState (exec (.rd 0x02) { State.reset with done := true, ecode := .invalidLength })).map (·.rdata) =
      some (some 0x07) := by decide

/-- RA3: `WR NIB[3], 1A` keeps the low half. -/
theorem test_wr_nibble_truncates :
    (nextState (exec (.wr 0x83 0x1A) State.reset)).map (fun t => (t.nibCell 3, t.status)) = some (0xA, 0x00) := by
  decide

/-- RA5 and RA6: unimplemented cells ignore writes. -/
theorem test_wr_unimplemented_ignored :
    (nextState (exec (.wr 0xA0 0x05) State.reset)) = some State.reset ∧
    (nextState (exec (.wr 0x50 0x05) State.reset)) = some State.reset := by decide

/-- CM4: byte 0x04 is a NOP; OLEN is kept. -/
theorem test_nop_keeps_olen :
    (nextState (exec (.nop true) { loaded 2 [3, 4] [0x99] with olen := 1, ecode := .illegalCmd })).map
      (fun t => (t.cmd, t.status, t.olen, t.len)) = some (0x04, 0x01, 1, 2) := by decide

/-- PK5, with cell 3 of BYTE filled over. -/
theorem test_pack_fills :
    (nextState (exec (.pack false) (loaded 6 [1, 2, 3, 4, 5, 6] [0xEE, 0xEE, 0xEE, 0xEE]))).map
      (fun t => (t.bytes.take 5, t.olen, t.status, t.nibs.take 7)) =
      some ([0x12, 0x34, 0x56, 0x00, 0x00], 3, 0x01, [1, 2, 3, 4, 5, 6, 0]) := by decide

/-- PK9: parity is checked before range. -/
theorem test_pack_parity_before_range :
    (nextState (exec (.pack true) (loaded 33 [1, 2] [0xEE]))).map
      (fun t => (t.byteCell 0, t.nibCell 1, t.olen, t.status)) = some (0xEE, 2, 0, 0x07) := by decide

/-- UP7: UNPACK.ZS zeroises the byte it did not read too. -/
theorem test_unpack_zs :
    (nextState (exec (.unpack true) (loaded 2 [] [0x12, 0x34, 0x56]))).map
      (fun t => (t.nibs.take 5, t.byteCell 2, t.olen, t.status)) = some ([1, 2, 3, 4, 0], 0x00, 4, 0x01) := by decide

/-- BM8: 65 bytes do not fit an instance of 64. -/
theorem test_unpack_range :
    (nextState (exec (.unpack false) (loadedWith 64 65 [7] [0x12]))).map
      (fun t => (t.nibCell 0, t.olen, t.status)) = some (7, 0, 0x0B) := by decide

/-- CM5: byte 0x07 is a CLEAR. -/
theorem test_clear :
    (nextState (exec (.clear true) (loaded 2 [3, 4] [0x99]))).map
      (fun t => (t.cmd, t.status, t.len, t.byteCell 0, t.nibs.take 2)) = some (0x07, 0x01, 0, 0x00, [0, 0]) := by decide

/-- CM2: byte 0xFF is not a CLEAR. -/
theorem test_wr_cmd_illegal :
    (nextState (exec (.wr 0x00 0xFF) (loaded 2 [3, 4] [0x99]))).map
      (fun t => (t.cmd, t.status, t.byteCell 0)) = some (0xFF, 0x0F, 0x99) := by decide

/-- One step from a placed word of each format. -/
theorem test_step_runs_placed_words :
    (nextState (step (State.reset.withFetchWord 24 0b1_00000001_00100000))).map (·.len) = some 0x20 ∧
    (nextState (step (State.reset.withFetchWord 8 0x05))).map (·.cmd) = some 0x05 := by decide

/-- `PACK.ZS 32` of program P1 in the spec's own text. -/
theorem test_script_text :
    (Pseudo.packZs 0x20).expand.map ScriptLine.text =
      [['W', ':', '0', '1', ':', '2', '0'], ['W', ':', '0', '0', ':', '0', '5']] ∧
    (Pseudo.readB 0 1).expand.map ScriptLine.text = [['R', ':', '4', '0']] := by decide

/-! ### Witnesses: for each statement with hypotheses, a state and operands that meet them together -/

theorem witness_CommandBytesAreTheOpcodeMap : 0x08 ≤ (0x08 : Byte).toNat ∧ 0x08 ≤ (0xFF : Byte).toNat := by decide

theorem witness_EveryBusWordIsAnAccess :
    (0x10000 : BusWord).getLsbD 16 = true ∧ (0x0FFFF : BusWord).getLsbD 16 = false := by decide

theorem witness_StepRunsTheDecodedAccess :
    (presenting [.access 0x10120]).pending = .access 0x10120 :: [] := rfl

theorem witness_PlacedTableWordRunsAsItsInstruction :
    decodeTableWord 8 0x06 = some (.unpack true) ∧ decodeTableWord 24 0x1FFFF = some (.wr 0xFF 0xFF) := by decide

theorem witness_IdleBlockHoldsItsState : State.reset.pending = [] := rfl

theorem witness_ResetLeavesEveryElementAtItsResetValue : (presenting [.reset]).pending = .reset :: [] := rfl

theorem witness_AccessDuringResetIsNotPerformed :
    (presenting [.accessInReset 0x10001]).pending = .accessInReset 0x10001 :: [] ∧ busWe 0x10001 = true ∧
    (presenting [.accessInReset 0x00200]).pending = .accessInReset 0x00200 :: [] ∧ busWe 0x00200 = false := by decide

theorem witness_PowerOnStateIsShapedAndResets : Config.standard.wf := by decide

theorem witness_ResetStateSatisfiesTheInvariant : (Config.mk 64).wf := by decide

theorem witness_EveryStepKeepsTheInvariant :
    ∃ t, (presenting [.access 0x14099]).Inv ∧ step (presenting [.access 0x14099]) = .next t :=
  ⟨_, by decide, rfl⟩

theorem witness_CapIsTheConstantBmax : ∃ t, State.reset.cfg.wf ∧ step (presenting [.reset]) = .next t :=
  ⟨_, by decide, rfl⟩

theorem witness_StatusIsTheViewOfDoneAndEcode :
    State.reset.Inv ∧ ∃ s t : State, step s = .next t ∧ s.done = true ∧ t.done = false :=
  ⟨by decide, { presenting [.reset] with done := true }, _, rfl, rfl, rfl⟩

theorem witness_ReadReturnsTheAddressedElement :
    State.reset.cfg.wf ∧ State.reset.Inv ∧ State.reset.done = false ∧
    (0x05 ≤ (0x05 : Byte).toNat ∧ (0x3F : Byte).toNat < 0x40) ∧
    (0x40 : Byte).toNat = 0x40 + 0 ∧ (0x4F : Byte).toNat = 0x40 + 15 ∧ 15 < State.reset.cfg.bmax ∧
    (0x40 + State.reset.cfg.bmax ≤ (0x50 : Byte).toNat ∧ (0x7F : Byte).toNat < 0x80) ∧
    (0x80 : Byte).toNat = 0x80 + 0 ∧ (0x9F : Byte).toNat = 0x80 + 31 ∧ 31 < State.reset.cfg.nmax ∧
    0x80 + State.reset.cfg.nmax ≤ (0xA0 : Byte).toNat := by decide

theorem witness_ReservedAddressesReadZeroAndIgnoreWrites :
    State.reset.cfg.wf ∧ (0x05 ≤ (0x05 : Byte).toNat ∧ (0x05 : Byte).toNat < 0x40) ∧
    (0x40 + State.reset.cfg.bmax ≤ (0x50 : Byte).toNat ∧ (0x50 : Byte).toNat < 0x80) ∧
    0x80 + State.reset.cfg.nmax ≤ (0xA0 : Byte).toNat := by decide

theorem witness_ReadOnlyRegistersChangeOnlyByCommands :
    ∃ t, step (presenting [.access 0x10008]) = .next t ∧ t.status ≠ (presenting [.access 0x10008]).status :=
  ⟨_, rfl, by decide⟩

theorem witness_ByteCellStoresEveryByte :
    State.reset.cfg.wf ∧ 0 < State.reset.cfg.bmax ∧ 15 < State.reset.cfg.bmax ∧ 0 ≠ 15 := by decide

theorem witness_NibbleCellKeepsTheLowHalf :
    State.reset.cfg.wf ∧ 0 < State.reset.cfg.nmax ∧ 31 < State.reset.cfg.nmax ∧ 0 ≠ 31 := by decide

theorem witness_AccessesChangeOnlyTheAddressedElement :
    (0x40 : Byte) ≠ 0x00 ∧ (0x41 : Byte) ≠ 0x40 ∧ (0x40 : Byte).toNat ≠ 0x40 + 1 ∧ (0x40 : Byte).toNat ≠ 0x80 + 0 := by
  decide

theorem witness_RepeatedAccesses :
    State.reset.sameBlock (presenting [.reset]) ∧ (0x01 : Byte) ≠ 0x00 ∧
    (loaded 32 [1] []).count % 2 = 0 ∧ (loaded 32 [1] []).count ≤ (loaded 32 [1] []).cfg.nmax := by decide

theorem witness_WritesBeforeTheCommandCommute :
    (loaded 2 [1, 2] [3]).shaped ∧ (0x40 : Byte) ≠ 0x00 ∧ (0x41 : Byte) ≠ 0x00 ∧ (0x40 : Byte) ≠ 0x41 := by decide

theorem witness_CommandReportsTheFirstErrorAndThenChangesNothingElse :
    ∃ t, exec (.wr 0x00 0x01) (loaded 34 [] []) = .next t ∧ t.ecode ≠ .none :=
  ⟨_, rfl, by decide⟩

theorem witness_IllegalCommandByteIsOnlyRecorded : 0x08 ≤ (0x08 : Byte).toNat ∧ 0x08 ≤ (0xFF : Byte).toNat := by decide

theorem witness_OddPackLengthIsInvalidLength :
    (loaded 1 [] []).len.toNat % 2 = 1 ∧ (loaded 255 [] []).len.toNat % 2 = 1 := by decide

theorem witness_LengthBeyondCapacityIsLengthRange :
    ((loaded 34 [] []).len.toNat % 2 = 0 ∧ (loaded 34 [] []).len.toNat > (loaded 34 [] []).cfg.nmax) ∧
    (loaded 17 [] []).len.toNat > (loaded 17 [] []).cfg.bmax := by decide

theorem witness_ReissuedFailedCommandFailsAgain :
    (∃ t, step (presenting [.access 0x10008]) = .next t ∧ t.ecode ≠ (presenting [.access 0x10008]).ecode) ∧
    ∃ t, exec (.wr 0x00 0x01) (loaded 3 [] []) = .next t ∧ t.ecode ≠ .none :=
  ⟨⟨_, rfl, by decide⟩, _, rfl, by decide⟩

theorem witness_CommandIgnoresCmdAndStatus :
    ∃ s s' : State, s'.cfg = s.cfg ∧ s'.len = s.len ∧ s'.byteBuf = s.byteBuf ∧ s'.nibBuf = s.nibBuf ∧
      s'.cmd ≠ s.cmd ∧ ((0x01 : Byte) ≠ 0x00 ∧ (0x01 : Byte) ≠ 0x04) :=
  ⟨State.reset, { State.reset with cmd := 0x09, done := true, ecode := .illegalCmd }, by decide⟩

theorem witness_PackPutsNibblePairsIntoBytes :
    ((loaded 32 [1, 2] []).len.toNat % 2 = 0 ∧ (loaded 32 [1, 2] []).len.toNat ≤ (loaded 32 [1, 2] []).cfg.nmax ∧
      15 < (loaded 32 [1, 2] []).len.toNat / 2 ∧ (loaded 32 [1, 2] []).len.toNat / 2 ≤ 16) ∧
    (loaded 1 [] []).len.toNat % 2 = 1 ∧
    ((loaded 34 [] []).len.toNat % 2 = 0 ∧ (loaded 34 [] []).cfg.nmax < (loaded 34 [] []).len.toNat) ∧
    ((loaded 4 [4, 4, 1, 2] []).cfg = Config.standard ∧ (loaded 4 [4, 4, 1, 2] []).nibs.take 4 = [4, 4, 1, 2] ∧
      (loaded 4 [4, 4, 1, 2] []).len = 4) := by decide

theorem witness_UnpackPutsByteHalvesIntoNibbles :
    ((loaded 16 [] [1]).cfg.wf ∧ (loaded 16 [] [1]).len.toNat ≤ (loaded 16 [] [1]).cfg.bmax ∧
      15 < (loaded 16 [] [1]).len.toNat ∧ 2 * (loaded 16 [] [1]).len.toNat ≤ 32) ∧
    ((loaded 1 [] [0xA5]).cfg = Config.standard ∧ (loaded 1 [] [0xA5]).byteCell 0 = 0xA5 ∧
      (loaded 1 [] [0xA5]).len = 1) := by decide

theorem witness_DestinationIsTheConversionThenZeros :
    ((loaded 32 [1] []).len.toNat % 2 = 0 ∧ (loaded 32 [1] []).len.toNat ≤ (loaded 32 [1] []).cfg.nmax) ∧
    (loaded 16 [] [1]).len.toNat ≤ (loaded 16 [] [1]).cfg.bmax := by decide

theorem witness_PackAndUnpackRoundTrip :
    ([1, 2] : List Nibble).length % 2 = 0 ∧
    ((loaded 32 [1] []).cfg.wf ∧ (loaded 32 [1] []).len = 32 ∧ (32 : Byte).toNat % 2 = 0 ∧
      (32 : Byte).toNat ≤ (loaded 32 [1] []).cfg.nmax ∧ 31 < (32 : Byte).toNat) ∧
    ((loaded 16 [] [1]).cfg.wf ∧ (loaded 16 [] [1]).len = 16 ∧ (16 : Byte).toNat ≤ (loaded 16 [] [1]).cfg.bmax ∧
      15 < (16 : Byte).toNat) := by decide

theorem witness_ResultDependsOnLenAndSourceAlone :
    ((loaded 2 [1, 2, 9] []).cfg = (loaded 2 [1, 2] [7]).cfg ∧ (loaded 2 [1, 2, 9] []).len = (loaded 2 [1, 2] [7]).len ∧
      (loaded 2 [1, 2] [7]).len.toNat % 2 = 0 ∧ (loaded 2 [1, 2] [7]).len.toNat ≤ (loaded 2 [1, 2] [7]).cfg.nmax ∧
      ∀ k, k < (loaded 2 [1, 2] [7]).len.toNat → (loaded 2 [1, 2, 9] []).nibCell k = (loaded 2 [1, 2] [7]).nibCell k) ∧
    ((loaded 1 [] [5, 6]).cfg = (loaded 1 [3] [5]).cfg ∧ (loaded 1 [] [5, 6]).len = (loaded 1 [3] [5]).len ∧
      (loaded 1 [3] [5]).len.toNat ≤ (loaded 1 [3] [5]).cfg.bmax ∧
      ∀ j, j < (loaded 1 [3] [5]).len.toNat → (loaded 1 [] [5, 6]).byteCell j = (loaded 1 [3] [5]).byteCell j) := by
  decide

theorem witness_LanesDoNotInteract :
    ((loaded 4 [1, 2, 9, 9] []).cfg = (loaded 4 [1, 2] []).cfg ∧ (loaded 4 [1, 2, 9, 9] []).len = (loaded 4 [1, 2] []).len ∧
      (loaded 4 [1, 2] []).len.toNat % 2 = 0 ∧ (loaded 4 [1, 2] []).len.toNat ≤ (loaded 4 [1, 2] []).cfg.nmax ∧
      (loaded 4 [1, 2, 9, 9] []).nibCell 0 = (loaded 4 [1, 2] []).nibCell 0 ∧
      (loaded 4 [1, 2, 9, 9] []).nibCell 1 = (loaded 4 [1, 2] []).nibCell 1) ∧
    ((loaded 2 [] [5, 6]).cfg = (loaded 2 [] [5]).cfg ∧ (loaded 2 [] [5, 6]).len = (loaded 2 [] [5]).len ∧
      (loaded 2 [] [5]).len.toNat ≤ (loaded 2 [] [5]).cfg.bmax ∧
      (loaded 2 [] [5, 6]).byteCell 0 = (loaded 2 [] [5]).byteCell 0) := by decide

theorem witness_LengthZeroSucceedsWithNothing : (loaded 0 [1] [2]).len = 0x00 := by decide

theorem witness_PackedByteIsExact :
    ((loaded 32 [] []).len.toNat % 2 = 0 ∧ (loaded 32 [] []).len.toNat ≤ (loaded 32 [] []).cfg.nmax ∧
      15 < (loaded 32 [] []).len.toNat / 2) ∧
    ((loaded 16 [] []).len.toNat ≤ (loaded 16 [] []).cfg.bmax ∧ 15 < (loaded 16 [] []).len.toNat) ∧
    (loaded 16 [1] [2]).Inv := by decide

theorem witness_BusReadsTheResultAfterAConversion :
    ((loaded 4 [1] []).cfg.wf ∧ (loaded 4 [1] []).len.toNat % 2 = 0 ∧
      (loaded 4 [1] []).len.toNat ≤ (loaded 4 [1] []).cfg.nmax ∧ 15 < (loaded 4 [1] []).cfg.bmax) ∧
    ((loaded 2 [] [1]).cfg.wf ∧ (loaded 2 [] [1]).len.toNat ≤ (loaded 2 [] [1]).cfg.bmax ∧
      31 < (loaded 2 [] [1]).cfg.nmax) := by decide

theorem witness_NopReportsSuccess :
    { loaded 3 [] [] with cmd := 0x01, done := true, ecode := .invalidLength }.Inv ∧
    ECode.invalidLength ≠ .none ∧
    { loaded 3 [] [] with cmd := 0x01, done := true, ecode := .invalidLength }.status = 0x07 := by decide

theorem witness_ClearZeroesBuffersAndCounts :
    State.reset.byteBuf = Memory.zeros ∧ State.reset.nibBuf = Memory.zeros ∧ State.reset.len = 0x00 ∧
      State.reset.olen = 0x00 := by decide

theorem witness_SmallInstanceCannotHoldAPlaintextBlock :
    (loadedWith 15 32 [] []).cfg.bmax < 16 ∧ (loadedWith 15 32 [] []).len = 32 ∧
    (loadedWith 15 16 [] []).cfg.bmax < 16 ∧ (loadedWith 15 16 [] []).len = 16 := by decide

theorem witness_PseudoConversionsSetLenAndConvert :
    (presenting (presented (Pseudo.packZs 32).expand)).pending = presented (Pseudo.packZs 32).expand ++ [] ∧
    (presenting (presented (Pseudo.unpack 16).expand)).pending = presented (Pseudo.unpack 16).expand ++ [] ∧
    (presenting (presented Pseudo.nop.expand)).pending = presented Pseudo.nop.expand ++ [] ∧
    (presenting (presented Pseudo.clear.expand)).pending = presented Pseudo.clear.expand ++ [] := by decide

theorem witness_PseudoLoadsFillConsecutiveCells :
    State.reset.cfg.wf ∧ (Pseudo.loadN 30 [1, 2]).wellFormed State.reset.cfg = true ∧
    (presenting (presented (Pseudo.loadN 30 [1, 2]).expand)).pending =
      presented (Pseudo.loadN 30 [1, 2]).expand ++ [] ∧
    (Pseudo.loadB 15 [9]).wellFormed State.reset.cfg = true ∧
    (presenting (presented (Pseudo.loadB 15 [9]).expand)).pending = presented (Pseudo.loadB 15 [9]).expand ++ [] := by
  decide

end Sys2Proof.Tests
end

section
/-! PROOFS. The family of 10_state.md: O14 (CAP), O15 (STATUS) and O9 (reset), with the rules they need about the
read-only registers, the STATUS view, the reset values and what a step can change. -/

namespace Sys2Proof.Machine

variable {s t : State}

/-! ### The read-only registers on the bus (10_state.md R27, R30) -/

theorem State.busRead_capAddr (s : State) : s.busRead capAddr = BitVec.ofNat 8 s.cfg.bmax := rfl

theorem State.busRead_statusAddr (s : State) : s.busRead statusAddr = s.status := rfl

theorem State.busWrite_capAddr (s : State) (d : Byte) : s.busWrite capAddr d = s := rfl

theorem State.busWrite_statusAddr (s : State) (d : Byte) : s.busWrite statusAddr d = s := rfl

/-- `BMAX <= 64` (00_scope.md R5) is what lets CAP hold it in eight bits. -/
theorem State.toNat_busRead_capAddr (h : s.cfg.wf) : (s.busRead capAddr).toNat = s.cfg.bmax := by
  obtain ⟨_, hle⟩ := h
  rw [State.busRead_capAddr, BitVec.toNat_ofNat, Nat.mod_eq_of_lt (by omega)]

theorem State.busRead_capAddr_congr (h : t.cfg = s.cfg) : t.busRead capAddr = s.busRead capAddr := by
  rw [State.busRead_capAddr, State.busRead_capAddr, h]

/-- A read in the form the statements use: only the model's own fields change. -/
theorem exec_rd_eq (s : State) (a : Byte) :
    exec (.rd a) s = .next { s with rdata := some (s.busRead a), pending := s.pending.tail } := rfl

/-- A write that the block ignores changes only the model's own fields. -/
theorem exec_wr_of_ignored {a d : Byte} (h : s.busWrite a d = s) :
    exec (.wr a d) s = .next { s with rdata := none, pending := s.pending.tail } := by
  rw [exec_wr, h]
  rfl

/-! ### The STATUS view (10_state.md R27) -/

theorem State.err_eq (s : State) : s.err = decide (s.ecode ≠ .none) := by
  rw [State.err, decide_eq_decide, ne_eq, ECode.code_eq_zero_iff]

/-- STATUS from the values of ECODE and DONE. -/
theorem State.status_eq_of {e : ECode} {d : Bool} (he : s.ecode = e) (hd : s.done = d) :
    s.status = (0b0000#4 ++ e.code ++ BitVec.ofBool (e.code ≠ 0) ++ BitVec.ofBool d : BitVec (4 + 2 + 1 + 1)) := by
  rw [State.status, State.err, he, hd]

theorem State.status_done_bit (s : State) : s.status.getLsbD 0 = s.done := by
  rw [State.status, BitVec.getLsbD_append]
  simp

theorem State.status_err_bit (s : State) : s.status.getLsbD 1 = s.err := by
  rw [State.status, BitVec.getLsbD_append, BitVec.getLsbD_append]
  simp

theorem State.status_ecode_field (s : State) : s.status.extractLsb' 2 2 = s.ecode.code := by
  rw [State.status_eq_of rfl rfl]
  cases s.ecode <;> cases s.done <;> rfl

theorem State.status_high_field (s : State) : s.status.extractLsb' 4 4 = 0 := by
  rw [State.status_eq_of rfl rfl]
  cases s.ecode <;> cases s.done <;> rfl

/-- The five values of STATUS: without DONE the invariant leaves only the reset value, with DONE there is one value for
each ECODE. -/
theorem State.status_values (h : s.Inv) :
    s.done = false ∧ s.ecode = .none ∧ s.status = 0x00 ∨
    s.done = true ∧ s.ecode = .none ∧ s.status = 0x01 ∨
    s.done = true ∧ s.ecode = .invalidLength ∧ s.status = 0x07 ∨
    s.done = true ∧ s.ecode = .lengthRange ∧ s.status = 0x0B ∨
    s.done = true ∧ s.ecode = .illegalCmd ∧ s.status = 0x0F := by
  obtain ⟨_, hfresh, _⟩ := h
  cases hd : s.done with
  | false =>
    obtain ⟨_, he, _⟩ := hfresh hd
    exact .inl ⟨rfl, he, State.status_eq_of he hd⟩
  | true =>
    cases he : s.ecode with
    | none => exact .inr (.inl ⟨rfl, rfl, State.status_eq_of he hd⟩)
    | invalidLength => exact .inr (.inr (.inl ⟨rfl, rfl, State.status_eq_of he hd⟩))
    | lengthRange => exact .inr (.inr (.inr (.inl ⟨rfl, rfl, State.status_eq_of he hd⟩)))
    | illegalCmd => exact .inr (.inr (.inr (.inr ⟨rfl, rfl, State.status_eq_of he hd⟩)))

/-! ### The reset values (10_state.md R34) -/

/-- Every element of the block's state at its reset value, STATUS with them. -/
structure State.AtResetValues (s : State) : Prop where
  cmd : s.cmd = 0x00
  len : s.len = 0x00
  done : s.done = false
  ecode : s.ecode = .none
  olen : s.olen = 0x00
  status : s.status = 0x00
  byteCell : ∀ j, s.byteCell j = 0x00
  nibCell : ∀ k, s.nibCell k = 0

theorem State.resetOf_atResetValues (c : Config) : (State.resetOf c).AtResetValues where
  cmd := State.resetOf_cmd c
  len := State.resetOf_len c
  done := State.resetOf_done c
  ecode := State.resetOf_ecode c
  olen := State.resetOf_olen c
  status := State.status_eq_of (State.resetOf_ecode c) (State.resetOf_done c)
  byteCell := Memory.read_zeros
  nibCell := Memory.read_zeros

/-- Reset gives the elements the values of `State.resetOf`, whatever they held (70_reset_and_hazards.md R140). -/
theorem State.afterReset_atResetValues (s : State) : s.afterReset.AtResetValues :=
  { State.resetOf_atResetValues s.cfg with }

/-! ### What a step leaves unchanged -/

/-- An access that reset keeps from being performed changes nothing of the block (70_reset_and_hazards.md R142). -/
theorem State.ignoreAccess_sameBlock (s : State) (w : BusWord) : s.sameBlock (s.ignoreAccess w) := by
  rcases State.ignoreAccess_cases (s := s) w with e | e <;> rw [e] <;> exact ⟨rfl, rfl, rfl, rfl, rfl, rfl, rfl, rfl⟩

/-- The configuration is no state: no step changes it (10_state.md R30). -/
theorem step_cfg (h : step s = .next t) : t.cfg = s.cfg := by
  rcases step_cases h with ⟨_, rfl⟩ | ⟨_, _, _, _, _, rfl⟩ | ⟨_, _, a, d, _, _, rfl⟩ | ⟨_, _, rfl⟩ | ⟨w, _, _, rfl⟩
  · rfl
  · exact State.complete_cfg ..
  · obtain ⟨hcfg, _⟩ := s.busWrite_frame a d
    rw [State.complete_cfg, hcfg]
  · exact State.afterReset_cfg s
  · obtain ⟨hcfg, _⟩ := s.ignoreAccess_sameBlock w
    exact hcfg

/-- DONE, once set, outlasts every bus write: a write to CMD sets it again, any other leaves it. -/
theorem State.busWrite_done (hd : s.done = true) (a d : Byte) : (s.busWrite a d).done = true := by
  by_cases ha : a = cmdAddr
  · obtain ⟨_, _, hdone, _⟩ := s.writeCmd_frame d
    rw [ha, State.busWrite_cmdAddr, hdone]
  · obtain ⟨_, hdone, _⟩ := s.busWrite_frame_of_ne ha d
    rw [hdone, hd]

/-- Only reset clears DONE (10_state.md R27). -/
theorem step_done_or_reset (h : step s = .next t) (hd : s.done = true) :
    t.done = true ∨ ∃ rest, s.pending = .reset :: rest := by
  rcases step_cases h with ⟨_, rfl⟩ | ⟨_, _, _, _, _, rfl⟩ | ⟨_, _, a, d, _, _, rfl⟩ | ⟨rest, hp, _⟩ | ⟨w, _, _, rfl⟩
  · exact .inl hd
  · exact .inl hd
  · exact .inl (State.busWrite_done hd a d)
  · exact .inr ⟨rest, hp⟩
  · obtain ⟨_, _, _, hdone, _⟩ := s.ignoreAccess_sameBlock w
    exact .inl (hdone.trans hd)

end Sys2Proof.Machine

namespace Sys2Proof.Proofs

open Sys2Proof.Machine

/-- Settles O14 (10_state.md R30): CAP is a view of the configuration alone, and no step changes the configuration. -/
theorem capIsTheConstantBmax : Obligations.CapIsTheConstantBmax := by
  refine ⟨fun s hwf => ?_, ?_, fun s d => ?_, fun s t h => ?_⟩
  · exact ⟨s.busRead capAddr, State.toNat_busRead_capAddr hwf, exec_rd_eq s capAddr⟩
  · exact ⟨_, exec_rd_eq State.reset capAddr, rfl⟩
  · exact exec_wr_of_ignored (s.busWrite_capAddr d)
  · have hcfg : t.cfg = s.cfg := step_cfg h
    exact ⟨hcfg, State.busRead_capAddr_congr hcfg⟩

/-- Settles O15 (10_state.md R27): the fields of the view, its values under the invariant, and the life of DONE. -/
theorem statusIsTheViewOfDoneAndEcode : Obligations.StatusIsTheViewOfDoneAndEcode := by
  refine ⟨fun s => ?_, fun s => State.status_values, fun s d => ?_, fun s c => ?_, fun s t h hs ht => ?_⟩
  · exact ⟨s.status_done_bit, s.status_err_bit.trans s.err_eq, s.status_ecode_field, s.status_high_field,
      exec_rd_eq s statusAddr⟩
  · exact exec_wr_of_ignored (s.busWrite_statusAddr d)
  · obtain ⟨_, _, hdone, _⟩ := s.writeCmd_frame c
    exact ⟨_, exec_wr s cmdAddr c, hdone⟩
  · rcases step_done_or_reset h hs with hdone | hreset
    · rw [hdone] at ht
      cases ht
    · exact hreset

/-- Settles O9 (10_state.md R34, 70_reset_and_hazards.md R140): a reset step and the reset state both leave every
element at its reset value, and neither touches the configuration that CAP shows. -/
theorem resetLeavesEveryElementAtItsResetValue : Obligations.ResetLeavesEveryElementAtItsResetValue := by
  refine ⟨fun s rest hp => ?_, ?_⟩
  · obtain ⟨hcmd, hlen, hdone, hecode, holen, hstatus, hbyte, hnib⟩ := s.afterReset_atResetValues
    have hcfg : s.afterReset.cfg = s.cfg := s.afterReset_cfg
    have hpending : s.afterReset.pending = rest := by rw [s.afterReset_pending, hp, List.tail_cons]
    exact ⟨s.afterReset, step_of_reset hp, hcmd, hlen, hdone, hecode, holen, hstatus, hbyte, hnib,
      State.busRead_capAddr_congr hcfg, hcfg, hpending⟩
  · obtain ⟨hcmd, hlen, hdone, hecode, holen, hstatus, hbyte, hnib⟩ := State.resetOf_atResetValues Config.standard
    exact ⟨hcmd, hlen, hdone, hecode, holen, hstatus, hbyte, hnib, rfl⟩

end Sys2Proof.Proofs
end

section
/-! PROOFS. The family of 20_memory.md: O17 (reserved and unimplemented addresses), with the rule for each access of an
address that the map marks reserved. -/

namespace Sys2Proof.Machine

variable {s : State} {a : Byte}

/-! ### RAZ/WI (20_memory.md R43) -/

theorem State.busRead_of_reserved (h : regAt s.cfg a = .reserved) : s.busRead a = 0x00 := by
  rw [State.busRead, h]

theorem State.busWrite_of_reserved (h : regAt s.cfg a = .reserved) (d : Byte) : s.busWrite a d = s := by
  rw [State.busWrite, h]

end Sys2Proof.Machine

namespace Sys2Proof.Proofs

open Sys2Proof.Machine

/-- Settles O17 (20_memory.md R43): in a legal instance the address map marks all three ranges reserved, and a reserved
address is RAZ/WI. -/
theorem reservedAddressesReadZeroAndIgnoreWrites : Obligations.ReservedAddressesReadZeroAndIgnoreWrites := by
  intro s a d hwf hrange
  have hreserved : regAt s.cfg a = .reserved := regAt_of_reserved hwf hrange
  constructor
  · rw [exec_rd_eq, State.busRead_of_reserved hreserved]
  · exact exec_wr_of_ignored (State.busWrite_of_reserved hreserved d)

end Sys2Proof.Proofs
end

section
/-! PROOFS. The family of 30_encoding.md: O2 (the opcode map) and O26 (illegal command bytes), with the byte of each
command and the rule for a bus write to CMD. -/

namespace Sys2Proof

/-! ### The byte of each command (30_encoding.md R67, R72) -/

/-- The two fields of an assembled byte do not overlap, so it is their sum `4 * ZS + OP`. -/
theorem toNat_assembleCommand (zs : Bool) (op : BitVec 2) :
    (assembleCommand zs op).toNat = 4 * zs.toNat + op.toNat := by
  revert zs op
  decide

theorem encodeCommand_nop (zs : Bool) : encodeCommand (.nop zs) = if zs then 0x04 else 0x00 := by cases zs <;> rfl

theorem encodeCommand_pack (zs : Bool) : encodeCommand (.pack zs) = if zs then 0x05 else 0x01 := by cases zs <;> rfl

theorem encodeCommand_unpack (zs : Bool) : encodeCommand (.unpack zs) = if zs then 0x06 else 0x02 := by
  cases zs <;> rfl

theorem encodeCommand_clear (zs : Bool) : encodeCommand (.clear zs) = if zs then 0x07 else 0x03 := by cases zs <;> rfl

/-- A byte decodes as the command that is encoded by it. -/
theorem decodeCommand_of_encodeCommand {c : Byte} {k : Command} (h : encodeCommand k = c) :
    decodeCommand c = .ok k := by
  rw [← h, decodeCommand_encodeCommand]

/-- From 0x08 up a reserved bit is set (30_encoding.md R66). -/
theorem decodeCommand_of_le {c : Byte} (h : 0x08 ≤ c.toNat) : decodeCommand c = .error (.illegalCmd c) :=
  decodeCommand_of_rsv ((cmdRsv_ne_zero_iff c).mpr h)

end Sys2Proof

namespace Sys2Proof.Machine

/-! ### A bus write to CMD (30_encoding.md R60) -/

theorem exec_wr_cmdAddr (s : State) (c : Byte) : exec (.wr cmdAddr c) s = .next ((s.writeCmd c).complete none) := by
  rw [exec_wr, State.busWrite_cmdAddr]

end Sys2Proof.Machine

namespace Sys2Proof.Proofs

open Sys2Proof.Machine

/-- Settles O2 (30_encoding.md R67): each byte of the table is the byte its command is encoded by, which decodes to the
command again; every other byte has a reserved bit set. -/
theorem commandBytesAreTheOpcodeMap : Obligations.CommandBytesAreTheOpcodeMap := by
  refine ⟨fun zs => ⟨?_, ?_, ?_, ?_, ?_, ?_, ?_, ?_⟩, fun _ => decodeCommand_of_le⟩
  · exact decodeCommand_of_encodeCommand (encodeCommand_nop zs)
  · exact decodeCommand_of_encodeCommand (encodeCommand_pack zs)
  · exact decodeCommand_of_encodeCommand (encodeCommand_unpack zs)
  · exact decodeCommand_of_encodeCommand (encodeCommand_clear zs)
  · exact toNat_assembleCommand zs 0b00
  · exact toNat_assembleCommand zs 0b01
  · exact toNat_assembleCommand zs 0b10
  · exact toNat_assembleCommand zs 0b11

/-- Settles O26 (30_encoding.md R68, 60_exceptions.md R123): a write to CMD stores the byte, and an illegal byte then
fails with ILLEGAL_CMD. -/
theorem illegalCommandByteIsOnlyRecorded : Obligations.IllegalCommandByteIsOnlyRecorded := by
  intro s c hc
  have hrsv : cmdRsv c ≠ 0 := (cmdRsv_ne_zero_iff c).mpr hc
  calc exec (.wr 0x00 c) s
    _ = .next ((s.writeCmd c).complete none) := exec_wr_cmdAddr s c
    _ = .next (((s.issue c).fail .illegalCmd).complete none) := by rw [s.writeCmd_illegal hrsv]

end Sys2Proof.Proofs
end

section
/-! PROOFS. The family of 40_register_access.md: O16 (reads), O18 (the read-only registers), O19 (LEN), O20 (byte cells)
and O21 (nibble cells), with the rule for each access of a register or a cell and what a step can do to STATUS and
OLEN. -/

namespace Sys2Proof.Machine

variable {s t : State} {a : Byte}

/-! ### Zero extension (00_scope.md R9) -/

theorem zext8_eq_append (n : Nibble) : zext8 n = 0#4 ++ n := by
  rw [zext8, BitVec.setWidth_eq_append (by decide), BitVec.cast_eq]

/-- A nibble cell reads with `d[7:4] = 0` (40_register_access.md R80). -/
theorem extractLsb'_high_zext8 (n : Nibble) : (zext8 n).extractLsb' 4 4 = 0 := by
  rw [zext8_eq_append, BitVec.extractLsb'_append_eq_left]
  rfl

/-! ### What a read returns, register by register and cell by cell (40_register_access.md R80) -/

theorem State.busRead_cmdAddr (s : State) : s.busRead cmdAddr = s.cmd := rfl

theorem State.busRead_lenAddr (s : State) : s.busRead lenAddr = s.len := rfl

theorem State.busRead_olenAddr (s : State) : s.busRead olenAddr = s.olen := rfl

theorem State.busRead_of_byte {j : Nat} (hj : j < s.cfg.bmax) (ha : a.toNat = byteBase + j) :
    s.busRead a = s.byteCell j := by
  rw [State.busRead, regAt_of_byte hj ha]

theorem State.busRead_of_nib {k : Nat} (hc : s.cfg.wf) (hk : k < s.cfg.nmax) (ha : a.toNat = nibBase + k) :
    s.busRead a = zext8 (s.nibCell k) := by
  rw [State.busRead, regAt_of_nib hc hk ha]

/-- Before any command the invariant leaves no error code either (10_state.md R34). -/
theorem State.status_of_not_done (h : s.Inv) (hd : s.done = false) : s.status = 0x00 := by
  obtain ⟨_, hfresh, _⟩ := h
  obtain ⟨_, he, _⟩ := hfresh hd
  exact State.status_eq_of he hd

/-! ### Accesses of a register or a cell as instructions (40_register_access.md R82-R85) -/

theorem State.busWrite_olenAddr (s : State) (d : Byte) : s.busWrite olenAddr d = s := rfl

theorem exec_wr_lenAddr (s : State) (d : Byte) : exec (.wr lenAddr d) s = .next ((s.setLen d).complete none) := by
  rw [exec_wr, State.busWrite_lenAddr]

theorem exec_wr_byteAddr {j : Nat} (hc : s.cfg.wf) (hj : j < s.cfg.bmax) (d : Byte) :
    exec (.wr (byteAddr j) d) s = .next ((s.setBytes (s.byteBuf.write j d)).complete none) := by
  rw [exec_wr, State.busWrite_byteAddr s d hc hj]

theorem exec_wr_nibAddr {k : Nat} (hc : s.cfg.wf) (hk : k < s.cfg.nmax) (d : Byte) :
    exec (.wr (nibAddr k) d) s = .next ((s.setNibs (s.nibBuf.write k (lowNibble d))).complete none) := by
  rw [exec_wr, State.busWrite_nibAddr s d hc hk]

theorem exec_rd_nibAddr {k : Nat} (hc : s.cfg.wf) (hk : k < s.cfg.nmax) :
    exec (.rd (nibAddr k)) s = .next (s.complete (some (0#4 ++ s.nibCell k))) := by
  rw [exec_rd, State.busRead_nibAddr s hc hk, zext8_eq_append]

/-! ### The cells after one is written (40_register_access.md R83, R85) -/

theorem State.byteCell_setBytes_write_same (s : State) (j : Nat) (d : Byte) :
    (s.setBytes (s.byteBuf.write j d)).byteCell j = d := by
  rw [State.setBytes_byteCell, Memory.read_write_same]

theorem State.byteCell_setBytes_write_other (s : State) {i j : Nat} (h : i ≠ j) (d : Byte) :
    (s.setBytes (s.byteBuf.write j d)).byteCell i = s.byteCell i := by
  rw [State.setBytes_byteCell, Memory.read_write_other _ d h, State.byteCell_eq]

theorem State.nibCell_setNibs_write_same (s : State) (k : Nat) (n : Nibble) :
    (s.setNibs (s.nibBuf.write k n)).nibCell k = n := by
  rw [State.setNibs_nibCell, Memory.read_write_same]

theorem State.nibCell_setNibs_write_other (s : State) {i k : Nat} (h : i ≠ k) (n : Nibble) :
    (s.setNibs (s.nibBuf.write k n)).nibCell i = s.nibCell i := by
  rw [State.setNibs_nibCell, Memory.read_write_other _ n h, State.nibCell_eq]

/-! ### STATUS and OLEN (40_register_access.md R82) -/

/-- The byte 0x00 written to CMD is NOP (42_control_commands.md R110). -/
theorem State.writeCmd_nop (s : State) : s.writeCmd 0x00 = (s.issue 0x00).nopBody :=
  s.writeCmd_encodeCommand (.nop false)

/-- STATUS and OLEN outlast every step but a reset and a write to CMD. -/
theorem step_status_olen_or_command (h : step s = .next t) :
    (t.status = s.status ∧ t.olen = s.olen) ∨
    (∃ rest, s.pending = .reset :: rest) ∨
    ∃ w rest c, s.pending = .access w :: rest ∧ decodeBus w = .wr cmdAddr c := by
  rcases step_cases h with
    ⟨_, rfl⟩ | ⟨_, _, _, _, _, rfl⟩ | ⟨w, rest, a, d, hp, hw, rfl⟩ | ⟨rest, hp, _⟩ | ⟨w, _, _, rfl⟩
  · exact .inl ⟨rfl, rfl⟩
  · exact .inl ⟨State.complete_status .., State.complete_olen ..⟩
  · by_cases ha : a = cmdAddr
    · exact .inr (.inr ⟨w, rest, d, hp, ha ▸ hw⟩)
    · obtain ⟨_, hdone, hecode, holen⟩ := s.busWrite_frame_of_ne ha d
      exact .inl ⟨State.status_congr hdone hecode, holen⟩
  · exact .inr (.inl ⟨rest, hp⟩)
  · obtain ⟨_, _, _, hdone, hecode, holen, _⟩ := s.ignoreAccess_sameBlock w
    exact .inl ⟨State.status_congr hdone hecode, holen⟩

end Sys2Proof.Machine

namespace Sys2Proof.Proofs

open Sys2Proof.Machine

/-- Settles O16 (40_register_access.md R80): a read returns `State.busRead` and changes the model's own fields alone, on
which `State.busRead` does not depend; the rest is the address map, range by range. -/
theorem readReturnsTheAddressedElement : Obligations.ReadReturnsTheAddressedElement := by
  refine ⟨decodeBus_read, fun s a hwf => ?_, fun s => State.status_of_not_done, rfl, rfl⟩
  refine ⟨s.busRead a, exec_rd_eq s a, ?again, ?cmd, ?len, ?status, ?olen, ?cap, ?low, ?byte, ?noByte, ?nib, ?noNib⟩
  case again => exact ⟨_, exec_rd_eq _ a, congrArg some (State.busRead_congr rfl rfl rfl rfl rfl rfl rfl rfl a)⟩
  case cmd => rintro rfl; exact s.busRead_cmdAddr
  case len => rintro rfl; exact s.busRead_lenAddr
  case status => rintro rfl; exact s.busRead_statusAddr.trans (State.status_eq_of rfl rfl)
  case olen => rintro rfl; exact s.busRead_olenAddr
  case cap => rintro rfl; exact s.busRead_capAddr
  case low => exact fun h => State.busRead_of_reserved (regAt_of_reserved hwf (.inl h))
  case byte => exact fun j hj ha => State.busRead_of_byte hj ha
  case noByte => exact fun h => State.busRead_of_reserved (regAt_of_reserved hwf (.inr (.inl h)))
  case nib =>
    intro k hk ha
    have hread : s.busRead a = zext8 (s.nibCell k) := State.busRead_of_nib hwf hk ha
    exact ⟨hread.trans (zext8_eq_append _), hread ▸ extractLsb'_high_zext8 _⟩
  case noNib => exact fun h => State.busRead_of_reserved (regAt_of_reserved hwf (.inr (.inr h)))

/-- Settles O18 (40_register_access.md R82): the map gives the three addresses no write, and of all a step can do only a
reset and a write to CMD touch what STATUS and OLEN show. -/
theorem readOnlyRegistersChangeOnlyByCommands : Obligations.ReadOnlyRegistersChangeOnlyByCommands := by
  refine ⟨fun s a d ha => ?_, fun s t h hchange => ?_, fun s t h => ?_, fun s => ?_⟩
  · rcases ha with rfl | rfl | rfl
    · exact exec_wr_of_ignored (s.busWrite_statusAddr d)
    · exact exec_wr_of_ignored (s.busWrite_olenAddr d)
    · exact exec_wr_of_ignored (s.busWrite_capAddr d)
  · rcases step_status_olen_or_command h with ⟨hstatus, holen⟩ | hcommand
    · exact absurd hchange (not_or.mpr ⟨not_not.mpr hstatus, not_not.mpr holen⟩)
    · exact hcommand
  · exact State.busRead_capAddr_congr (step_cfg h)
  · refine ⟨_, exec_wr_cmdAddr s 0x00, ?_⟩
    rw [s.writeCmd_nop]
    exact ⟨rfl, State.status_eq_of (e := .none) (d := true) rfl rfl⟩

/-- Settles O21 (40_register_access.md R83): the write stores the low half in the one cell, and the read returns the cell
zero-extended; the rule's example is these two accesses of NIB[3]. -/
theorem nibbleCellKeepsTheLowHalf : Obligations.NibbleCellKeepsTheLowHalf := by
  refine ⟨fun s k d hwf hk => ?_, ?_⟩
  · exact ⟨_, exec_wr_nibAddr hwf hk d, s.nibCell_setNibs_write_same k (lowNibble d),
      fun i hi => s.nibCell_setNibs_write_other hi (lowNibble d), rfl, _, exec_rd_nibAddr hwf hk, rfl⟩
  · have hwf : State.reset.cfg.wf := by decide
    have hk : 3 < State.reset.cfg.nmax := by decide
    exact ⟨_, _, exec_wr_nibAddr hwf hk 0x1A, exec_rd_nibAddr hwf hk, rfl⟩

/-- Settles O19 (40_register_access.md R84): the map sends address 0x01 to LEN, for every byte. -/
theorem lenStoresEveryByte : Obligations.LenStoresEveryByte :=
  exec_wr_lenAddr

/-- Settles O20 (40_register_access.md R85): the write stores the byte in the one cell of BYTE. -/
theorem byteCellStoresEveryByte : Obligations.ByteCellStoresEveryByte := by
  intro s j d hwf hj
  exact ⟨_, exec_wr_byteAddr hwf hj d, s.byteCell_setBytes_write_same j d,
    fun i hi => s.byteCell_setBytes_write_other hi d, rfl⟩

end Sys2Proof.Proofs
end

section
/-! PROOFS. The family of 41_nibble_packing.md: O25 (the order of the checks), O31 (PACK), O32 (UNPACK), O33 (source
zeroisation) and O34 (destination fill), with the error code of every command body, the state after each conversion
that succeeds, and the pure conversions of a sequence given by index. -/

namespace Sys2Proof

/-! ### The fields of each command's byte (30_encoding.md R61, R67) -/

theorem cmdRsv_encodeCommand (k : Command) : cmdRsv (encodeCommand k) = 0 := by
  cases k with
  | nop zs | pack zs | unpack zs | clear zs =>
    obtain ⟨_, _, hrsv⟩ := assembleCommand_fields zs _
    exact hrsv

theorem cmdOp_encodeCommand_nop (zs : Bool) : cmdOp (encodeCommand (.nop zs)) = 0b00 := (assembleCommand_fields zs _).1

theorem cmdOp_encodeCommand_pack (zs : Bool) : cmdOp (encodeCommand (.pack zs)) = 0b01 :=
  (assembleCommand_fields zs _).1

theorem cmdOp_encodeCommand_unpack (zs : Bool) : cmdOp (encodeCommand (.unpack zs)) = 0b10 :=
  (assembleCommand_fields zs _).1

theorem cmdOp_encodeCommand_clear (zs : Bool) : cmdOp (encodeCommand (.clear zs)) = 0b11 :=
  (assembleCommand_fields zs _).1

end Sys2Proof

namespace Sys2Proof.Machine

/-! ### Which error a command reports (41_nibble_packing.md R91) -/

theorem State.packBody_ecode (s : State) (zs : Bool) :
    (s.packBody zs).ecode =
      if s.count % 2 = 1 then .invalidLength else if s.cfg.nmax < s.count then .lengthRange else .none := by
  rcases s.packBody_cases zs with ⟨hodd, e⟩ | ⟨heven, hrange, e⟩ | ⟨heven, hfits, e⟩
  · rw [e, State.fail_ecode, if_pos hodd]
  · rw [e, State.fail_ecode, if_neg (by omega), if_pos hrange]
  · rw [e, State.succeed_ecode, if_neg (by omega), if_neg (by omega)]

theorem State.unpackBody_ecode (s : State) (zs : Bool) :
    (s.unpackBody zs).ecode = if s.cfg.bmax < s.count then .lengthRange else .none := by
  rcases s.unpackBody_cases zs with ⟨hrange, e⟩ | ⟨hfits, e⟩
  · rw [e, State.fail_ecode, if_pos hrange]
  · rw [e, State.succeed_ecode, if_neg (by omega)]

/-- The checks of a CMD write, in the order of R91. -/
theorem State.writeCmd_ecode (s : State) (c : Byte) :
    (s.writeCmd c).ecode =
      (if cmdRsv c ≠ 0 then .illegalCmd
       else if cmdOp c = 1 ∧ s.count % 2 = 1 then .invalidLength
       else if cmdOp c = 1 ∧ s.cfg.nmax < s.count ∨ cmdOp c = 2 ∧ s.cfg.bmax < s.count then .lengthRange
       else .none) := by
  rcases s.writeCmd_cases c with ⟨hrsv, e⟩ | ⟨k, rfl, e⟩
  · rw [e, State.fail_ecode, if_pos hrsv]
  · rw [e, if_neg (not_not_intro (cmdRsv_encodeCommand k))]
    cases k with
    | nop zs => simp [State.perform, cmdOp_encodeCommand_nop]
    | pack zs =>
      rw [State.perform, State.packBody_ecode, State.issue_count, State.issue_cfg, cmdOp_encodeCommand_pack]
      simp
    | unpack zs =>
      rw [State.perform, State.unpackBody_ecode, State.issue_count, State.issue_cfg, cmdOp_encodeCommand_unpack]
      simp
    | clear zs => simp [State.perform, cmdOp_encodeCommand_clear]

/-! ### What an error leaves unchanged (41_nibble_packing.md R91) -/

/-- A command body that ends in an error did nothing but `fail`. -/
theorem State.perform_eq_fail (s : State) (k : Command) (h : (s.perform k).ecode ≠ .none) :
    s.perform k = s.fail (s.perform k).ecode := by
  cases k with
  | nop zs | clear zs => exact absurd rfl h
  | pack zs =>
    rw [State.perform] at h ⊢
    rcases s.packBody_cases zs with ⟨_, e⟩ | ⟨_, _, e⟩ | ⟨_, _, e⟩
    · rw [e, State.fail_ecode]
    · rw [e, State.fail_ecode]
    · exact absurd (congrArg State.ecode e) h
  | unpack zs =>
    rw [State.perform] at h ⊢
    rcases s.unpackBody_cases zs with ⟨_, e⟩ | ⟨_, e⟩
    · rw [e, State.fail_ecode]
    · exact absurd (congrArg State.ecode e) h

/-- A CMD write that ends in an error stored its byte, set DONE and failed. -/
theorem State.writeCmd_eq_fail (s : State) (c : Byte) (h : (s.writeCmd c).ecode ≠ .none) :
    s.writeCmd c = (s.issue c).fail (s.writeCmd c).ecode := by
  rcases s.writeCmd_cases c with ⟨_, e⟩ | ⟨k, _, e⟩
  · rw [e, State.fail_ecode]
  · rw [e] at h ⊢
    exact (s.issue c).perform_eq_fail k h

/-! ### The source buffer (41_nibble_packing.md R94) -/

theorem State.packBody_nibCell (s : State) (zs : Bool) (k : Nat) :
    (s.packBody zs).nibCell k = if zs = true ∧ (s.packBody zs).ecode = .none then 0 else s.nibCell k := by
  rcases s.packBody_cases zs with ⟨_, e⟩ | ⟨_, _, e⟩ | ⟨_, _, e⟩
  · simp [e]
  · simp [e]
  · cases zs with
    | false => simp [e, State.nibCell_eq]
    | true => simp [e]

theorem State.unpackBody_byteCell (s : State) (zs : Bool) (j : Nat) :
    (s.unpackBody zs).byteCell j = if zs = true ∧ (s.unpackBody zs).ecode = .none then 0x00 else s.byteCell j := by
  rcases s.unpackBody_cases zs with ⟨_, e⟩ | ⟨_, e⟩
  · simp [e]
  · cases zs with
    | false => simp [e, State.byteCell_eq]
    | true => simp [e]

/-! ### The state after a conversion that succeeds (41_nibble_packing.md R92, R93) -/

/-- The state that a PACK leaves when it succeeds (`exec_pack_of_fits`). -/
def State.afterPack (zs : Bool) (s : State) : State :=
  { s with
    cmd := if zs then 0x05 else 0x01
    done := true
    ecode := .none
    olen := BitVec.ofNat 8 (s.count / 2)
    byteBuf := Memory.table s.cfg.bmax s.packedByte
    nibBuf := if zs then Memory.zeros else s.nibBuf
    rdata := none
    pending := s.pending.tail }

/-- The state that an UNPACK leaves when it succeeds (`exec_unpack_of_fits`). -/
def State.afterUnpack (zs : Bool) (s : State) : State :=
  { s with
    cmd := if zs then 0x06 else 0x02
    done := true
    ecode := .none
    olen := BitVec.ofNat 8 (2 * s.count)
    byteBuf := if zs then Memory.zeros else s.byteBuf
    nibBuf := Memory.table s.cfg.nmax s.unpackedNibble
    rdata := none
    pending := s.pending.tail }

/-- `PACK` and `PACK.ZS` are the writes of their bytes to CMD (41_nibble_packing.md R90). -/
theorem exec_wr_pack (s : State) (zs : Bool) :
    exec (.wr cmdAddr (if zs then 0x05 else 0x01)) s = exec (.pack zs) s := by
  rw [← encodeCommand_pack]
  exact (exec_command s (.pack zs)).symm

/-- `UNPACK` and `UNPACK.ZS` are the writes of their bytes to CMD (41_nibble_packing.md R90). -/
theorem exec_wr_unpack (s : State) (zs : Bool) :
    exec (.wr cmdAddr (if zs then 0x06 else 0x02)) s = exec (.unpack zs) s := by
  rw [← encodeCommand_unpack]
  exact (exec_command s (.unpack zs)).symm

section
variable {s : State} (zs : Bool)

theorem exec_pack_of_fits (heven : s.count % 2 = 0) (hfits : s.count ≤ s.cfg.nmax) :
    exec (.pack zs) s = .next (s.afterPack zs) := by
  have hbody := (s.issue (encodeCommand (.pack zs))).packBody_ok zs heven hfits
  rw [exec_pack, State.perform, hbody, encodeCommand_pack]
  rfl

theorem exec_unpack_of_fits (hfits : s.count ≤ s.cfg.bmax) : exec (.unpack zs) s = .next (s.afterUnpack zs) := by
  have hbody := (s.issue (encodeCommand (.unpack zs))).unpackBody_ok zs hfits
  rw [exec_unpack, State.perform, hbody, encodeCommand_unpack]
  rfl

/-- The range check makes the result fit the buffer, so a cell past the buffer's end is past the result too. -/
theorem State.afterPack_byteCell (hfits : s.count ≤ s.cfg.nmax) (j : Nat) :
    (s.afterPack zs).byteCell j = s.packedByte j := by
  have hread : (s.afterPack zs).byteCell j = if j < s.cfg.bmax then s.packedByte j else 0 := Memory.read_table ..
  rw [Config.nmax] at hfits
  split at hread
  · exact hread
  · rw [hread, s.packedByte_fill (by omega)]

theorem State.afterPack_olen : (s.afterPack zs).olen = BitVec.ofNat 8 (s.count / 2) := rfl

theorem State.afterPack_nibCell (k : Nat) : (s.afterPack zs).nibCell k = if zs then 0 else s.nibCell k := by
  cases zs <;> rfl

/-- As for PACK, a cell past the buffer's end is past the result. -/
theorem State.afterUnpack_nibCell (hfits : s.count ≤ s.cfg.bmax) (k : Nat) :
    (s.afterUnpack zs).nibCell k = s.unpackedNibble k := by
  have hread : (s.afterUnpack zs).nibCell k = if k < s.cfg.nmax then s.unpackedNibble k else 0 := Memory.read_table ..
  rw [Config.nmax] at hread
  split at hread
  · exact hread
  · rw [hread, s.unpackedNibble_fill (by omega)]

theorem State.afterUnpack_olen : (s.afterUnpack zs).olen = BitVec.ofNat 8 (2 * s.count) := rfl

theorem State.afterUnpack_byteCell (j : Nat) : (s.afterUnpack zs).byteCell j = if zs then 0x00 else s.byteCell j := by
  cases zs <;> rfl

/-- `BMAX <= 64` keeps `2 * LEN` within the eight bits of OLEN (41_nibble_packing.md R99). -/
theorem State.afterUnpack_olen_toNat (hwf : s.cfg.wf) (hfits : s.count ≤ s.cfg.bmax) :
    (s.afterUnpack zs).olen.toNat = 2 * s.count := by
  obtain ⟨_, hle⟩ := hwf
  rw [State.afterUnpack_olen, BitVec.toNat_ofNat, Nat.mod_eq_of_lt (by omega)]

end

/-! ### The pure conversions of a sequence given by index (41_nibble_packing.md R92, R93) -/

theorem packSeq_map_range (f : Nat → Nibble) (n : Nat) :
    packSeq ((List.range (2 * n)).map f) = some ((List.range n).map fun i => packByte (f (2 * i)) (f (2 * i + 1))) := by
  induction n generalizing f with
  | zero => rfl
  | succ n ih =>
    have hsrc : (List.range (2 * (n + 1))).map f = f 0 :: f 1 :: (List.range (2 * n)).map fun k => f (k + 2) := by
      simp [Nat.mul_succ, List.range_succ_eq_map, Function.comp_def]
    rw [hsrc, packSeq_pair, ih]
    simp [List.range_succ_eq_map, Function.comp_def, Nat.mul_succ, Nat.add_right_comm]

theorem unpackSeq_map_range (f : Nat → Byte) (n : Nat) :
    unpackSeq ((List.range n).map f) =
      (List.range (2 * n)).map fun k => if k % 2 = 0 then highNibble (f (k / 2)) else lowNibble (f (k / 2)) := by
  induction n generalizing f with
  | zero => rfl
  | succ n ih =>
    have hsrc : (List.range (n + 1)).map f = f 0 :: (List.range n).map fun i => f (i + 1) := by
      simp [List.range_succ_eq_map, Function.comp_def]
    have hhalf : ∀ k, (k + 1 + 1) / 2 = k / 2 + 1 := fun k => by omega
    have hparity : ∀ k, (k + 1 + 1) % 2 = k % 2 := fun k => by omega
    rw [hsrc, unpackSeq_cons, ih]
    simp [Nat.mul_succ, List.range_succ_eq_map, Function.comp_def, hhalf, hparity]

/-- A sequence that is zero from index `n` on is its first `n` elements followed by zeros. -/
theorem map_range_eq_append_zeros {w n cap : Nat} {f : Nat → BitVec w} (hn : n ≤ cap)
    (hf : ∀ k, n ≤ k → f k = 0) :
    (List.range cap).map f = (List.range n).map f ++ List.replicate (cap - n) 0 := by
  obtain ⟨m, rfl⟩ := Nat.exists_eq_add_of_le hn
  rw [List.range_add, List.map_append, List.map_map, Nat.add_sub_cancel_left]
  congr 1
  exact List.eq_replicate_iff.mpr ⟨by simp, by simp [hf]⟩

/-! ### The destination buffer as a sequence (41_nibble_packing.md R95) -/

section
variable {s : State}

theorem State.nibs_take {n : Nat} (h : n ≤ s.cfg.nmax) : s.nibs.take n = (List.range n).map s.nibCell := by
  rw [State.nibs, ← List.map_take, List.take_range, Nat.min_eq_left h]

theorem State.bytes_take {n : Nat} (h : n ≤ s.cfg.bmax) : s.bytes.take n = (List.range n).map s.byteCell := by
  rw [State.bytes, ← List.map_take, List.take_range, Nat.min_eq_left h]

/-- What PACK leaves below the count is the pure conversion of the source. -/
theorem State.packSeq_nibs_take (heven : s.count % 2 = 0) (hfits : s.count ≤ s.cfg.nmax) :
    packSeq (s.nibs.take s.count) = some ((List.range (s.count / 2)).map s.packedByte) := by
  have hpairs : packSeq (s.nibs.take s.count) =
      some ((List.range (s.count / 2)).map fun i => packByte (s.nibCell (2 * i)) (s.nibCell (2 * i + 1))) := by
    rw [State.nibs_take hfits, ← packSeq_map_range, Nat.mul_div_cancel' (Nat.dvd_of_mod_eq_zero heven)]
  rw [hpairs]
  refine congrArg some (List.map_congr_left fun i hi => ?_)
  exact (s.packedByte_lane (List.mem_range.mp hi)).symm

/-- What UNPACK leaves below twice the count is the pure conversion of the source. -/
theorem State.unpackSeq_bytes_take (hfits : s.count ≤ s.cfg.bmax) :
    unpackSeq (s.bytes.take s.count) = (List.range (2 * s.count)).map s.unpackedNibble := by
  rw [State.bytes_take hfits, unpackSeq_map_range]
  refine List.map_congr_left fun k hk => ?_
  rw [State.unpackedNibble, if_pos (List.mem_range.mp hk)]

theorem State.afterPack_bytes (zs : Bool) {r : List Byte} (heven : s.count % 2 = 0) (hfits : s.count ≤ s.cfg.nmax)
    (hr : packSeq (s.nibs.take s.count) = some r) :
    r.length = s.count / 2 ∧ (s.afterPack zs).bytes = r ++ List.replicate (s.cfg.bmax - r.length) 0x00 := by
  obtain rfl : (List.range (s.count / 2)).map s.packedByte = r :=
    Option.some.inj ((State.packSeq_nibs_take heven hfits).symm.trans hr)
  have hcells : (s.afterPack zs).byteCell = s.packedByte := funext (State.afterPack_byteCell zs hfits)
  have hresult : s.count / 2 ≤ s.cfg.bmax := Nat.div_le_of_le_mul hfits
  rw [List.length_map, List.length_range, State.bytes, hcells]
  exact ⟨rfl, map_range_eq_append_zeros hresult fun _ => s.packedByte_fill⟩

theorem State.afterUnpack_nibs (zs : Bool) {r : List Nibble} (hfits : s.count ≤ s.cfg.bmax)
    (hr : unpackSeq (s.bytes.take s.count) = r) :
    r.length = 2 * s.count ∧ (s.afterUnpack zs).nibs = r ++ List.replicate (s.cfg.nmax - r.length) 0 := by
  obtain rfl : (List.range (2 * s.count)).map s.unpackedNibble = r := (State.unpackSeq_bytes_take hfits).symm.trans hr
  have hcells : (s.afterUnpack zs).nibCell = s.unpackedNibble := funext (State.afterUnpack_nibCell zs hfits)
  rw [List.length_map, List.length_range, State.nibs, hcells]
  exact ⟨rfl, map_range_eq_append_zeros (Nat.mul_le_mul_left 2 hfits) fun _ => s.unpackedNibble_fill⟩

end

end Sys2Proof.Machine

namespace Sys2Proof.Proofs

open Sys2Proof.Machine

/-- Settles O25 (41_nibble_packing.md R91): the checks of a CMD write in their order, and the frame of `fail`. -/
theorem commandReportsTheFirstErrorAndThenChangesNothingElse :
    Obligations.CommandReportsTheFirstErrorAndThenChangesNothingElse := by
  intro s c
  refine ⟨(s.writeCmd c).complete none, exec_wr_cmdAddr s c, s.writeCmd_ecode c, fun herr => ?_⟩
  exact congrArg (State.complete none) (s.writeCmd_eq_fail c herr)

/-- Settles O33 (41_nibble_packing.md R94): the source buffer after each outcome of the command's body. -/
theorem sourceIsZeroisedExactlyOnSuccessWithZs : Obligations.SourceIsZeroisedExactlyOnSuccessWithZs :=
  ⟨fun s zs => ⟨_, exec_pack s zs, State.packBody_nibCell _ zs⟩,
    fun s zs => ⟨_, exec_unpack s zs, State.unpackBody_byteCell _ zs⟩⟩

/-- Settles O34 (41_nibble_packing.md R95): the destination below the count is the pure conversion, and every cell after
it is the fill. -/
theorem destinationIsTheConversionThenZeros : Obligations.DestinationIsTheConversionThenZeros := by
  constructor
  · intro s zs heven hfits
    have hr := State.packSeq_nibs_take heven hfits
    obtain ⟨hlength, hbytes⟩ := State.afterPack_bytes zs heven hfits hr
    exact ⟨_, _, exec_pack_of_fits zs heven hfits, hr, hlength, hbytes⟩
  · intro s zs hfits
    obtain ⟨hlength, hnibs⟩ := State.afterUnpack_nibs zs hfits rfl
    exact ⟨_, _, exec_unpack_of_fits zs hfits, rfl, hlength, hnibs⟩

/-- Settles O31 (41_nibble_packing.md R92): the lanes, the fill and the frame of the state after a PACK that succeeds,
the error codes of its body, and the example by the pure conversion of its four nibbles. -/
theorem packPutsNibblePairsIntoBytes : Obligations.PackPutsNibblePairsIntoBytes := by
  refine ⟨fun s zs heven hfits => ?_, fun s zs => ?_, exec_wr_pack, fun s hcfg hnibs hlen => ?_⟩
  · have hcell : ∀ j, (s.afterPack zs).byteCell j = s.packedByte j := State.afterPack_byteCell zs hfits
    refine ⟨_, exec_pack_of_fits zs heven hfits, fun i hi => ?_, fun j hj => ?_, State.afterPack_nibCell zs, rfl⟩
    · rw [hcell, s.packedByte_lane hi]
      exact ⟨rfl, highNibble_packByte _ _, lowNibble_packByte _ _⟩
    · rw [hcell, s.packedByte_fill hj]
  · refine ⟨_, exec_pack s zs, fun hodd => ?_, fun heven hrange => ?_⟩
    · exact (State.packBody_ecode _ zs).trans (if_pos hodd)
    · have hnotOdd : ¬ s.len.toNat % 2 = 1 := by omega
      exact (State.packBody_ecode _ zs).trans ((if_neg hnotOdd).trans (if_pos hrange))
  · have hcount : s.count = 4 := congrArg BitVec.toNat hlen
    have heven : s.count % 2 = 0 := by rw [hcount]
    have hfits : s.count ≤ s.cfg.nmax := by rw [hcount, hcfg]; decide
    have hr : packSeq (s.nibs.take s.count) = some [0x44, 0x12] := by rw [hcount, hnibs]; rfl
    obtain ⟨_, hbytes⟩ := State.afterPack_bytes false heven hfits hr
    rw [hcfg] at hbytes
    refine ⟨s.afterPack false, (exec_wr_pack s false).trans (exec_pack_of_fits false heven hfits), hbytes, ?_,
      State.status_eq_of (e := .none) (d := true) rfl rfl⟩
    rw [State.afterPack_olen, hcount]
    rfl

/-- Settles O32 (41_nibble_packing.md R93): the lanes, the fill and the frame of the state after an UNPACK that
succeeds, the error code of its body, and the example by the pure conversion of its one byte. -/
theorem unpackPutsByteHalvesIntoNibbles : Obligations.UnpackPutsByteHalvesIntoNibbles := by
  refine ⟨fun s zs hwf hfits => ?_, fun s zs => ?_, exec_wr_unpack, fun s hcfg hbyte hlen => ?_⟩
  · have hcell : ∀ k, (s.afterUnpack zs).nibCell k = s.unpackedNibble k := State.afterUnpack_nibCell zs hfits
    refine ⟨_, exec_unpack_of_fits zs hfits, fun i hi => ?_, fun k hk => ?_, State.afterUnpack_byteCell zs,
      State.afterUnpack_olen_toNat zs hwf hfits, rfl⟩
    · exact ⟨(hcell _).trans (s.unpackedNibble_high hi), (hcell _).trans (s.unpackedNibble_low hi)⟩
    · rw [hcell, s.unpackedNibble_fill hk]
  · exact ⟨_, exec_unpack s zs, State.unpackBody_ecode _ zs⟩
  · have hcount : s.count = 1 := congrArg BitVec.toNat hlen
    have hfits : s.count ≤ s.cfg.bmax := by rw [hcount, hcfg]; decide
    have hr : unpackSeq (s.bytes.take s.count) = [0xA, 0x5] := by
      rw [State.bytes_take hfits, hcount, List.range_one, List.map_singleton, hbyte]
      rfl
    obtain ⟨_, hnibs⟩ := State.afterUnpack_nibs false hfits hr
    rw [hcfg] at hnibs
    refine ⟨s.afterUnpack false, (exec_wr_unpack s false).trans (exec_unpack_of_fits false hfits), hnibs, ?_,
      State.status_eq_of (e := .none) (d := true) rfl rfl⟩
    rw [State.afterUnpack_olen, hcount]
    rfl

end Sys2Proof.Proofs
end

section
/-! PROOFS. The family of 42_control_commands.md: O41 (NOP) and O42 (CLEAR), with the state after each control command
and what a block with zero buffers shows on the bus. -/

namespace Sys2Proof.Machine

variable {s : State}

/-! ### The state after each control command (42_control_commands.md R110, R111) -/

/-- A command is the write of its byte to CMD, whatever way the byte is written (41_nibble_packing.md R90). -/
theorem exec_wr_of_encodeCommand {c : Byte} {k : Command} (s : State) (h : encodeCommand k = c) :
    exec (.wr cmdAddr c) s = exec k.instr s := by
  rw [← h, exec_command]

/-- The state that NOP leaves (`exec_nop_eq_afterNop`). -/
def State.afterNop (zs : Bool) (s : State) : State :=
  { s with
    cmd := if zs then 0x04 else 0x00
    done := true
    ecode := .none
    rdata := none
    pending := s.pending.tail }

/-- The state that CLEAR leaves (`exec_clear_eq_afterClear`): the reset state but for CMD, DONE and the model's own
fields. -/
def State.afterClear (zs : Bool) (s : State) : State :=
  { State.resetOf s.cfg with
    cmd := if zs then 0x07 else 0x03
    done := true
    pending := s.pending.tail
    draws := s.draws }

theorem exec_nop_eq_afterNop (s : State) (zs : Bool) : exec (.nop zs) s = .next (s.afterNop zs) := by
  rw [exec_nop, State.perform, encodeCommand_nop]
  rfl

theorem exec_clear_eq_afterClear (s : State) (zs : Bool) : exec (.clear zs) s = .next (s.afterClear zs) := by
  rw [exec_clear, State.perform, encodeCommand_clear]
  rfl

theorem exec_wr_nop (s : State) (zs : Bool) : exec (.wr cmdAddr (if zs then 0x04 else 0x00)) s = exec (.nop zs) s :=
  exec_wr_of_encodeCommand s (encodeCommand_nop zs)

theorem exec_wr_clear (s : State) (zs : Bool) :
    exec (.wr cmdAddr (if zs then 0x07 else 0x03)) s = exec (.clear zs) s :=
  exec_wr_of_encodeCommand s (encodeCommand_clear zs)

theorem State.afterNop_status (s : State) (zs : Bool) : (s.afterNop zs).status = 0x01 :=
  State.status_eq_of (e := .none) (d := true) rfl rfl

theorem State.afterNop_olen (s : State) (zs : Bool) : (s.afterNop zs).olen = s.olen := rfl

/-- After an error OLEN is 0 already, and NOP keeps it (42_control_commands.md R110). -/
theorem State.afterNop_olen_of_error (hinv : s.Inv) (herr : s.ecode ≠ .none) (zs : Bool) :
    (s.afterNop zs).olen = 0x00 := by
  obtain ⟨_, _, holen, _⟩ := hinv
  rw [State.afterNop_olen, holen herr]

theorem State.afterClear_status (s : State) (zs : Bool) : (s.afterClear zs).status = 0x01 :=
  State.status_eq_of (e := .none) (d := true) rfl rfl

theorem State.afterClear_byteCell (s : State) (zs : Bool) (j : Nat) : (s.afterClear zs).byteCell j = 0x00 :=
  Memory.read_zeros j

theorem State.afterClear_nibCell (s : State) (zs : Bool) (k : Nat) : (s.afterClear zs).nibCell k = 0 :=
  Memory.read_zeros k

/-- Where the buffers and the counts are zero already, CLEAR has only CMD, DONE and ECODE to change. -/
theorem State.afterClear_of_zeros (hbytes : s.byteBuf = Memory.zeros) (hnibs : s.nibBuf = Memory.zeros)
    (hlen : s.len = 0x00) (holen : s.olen = 0x00) (zs : Bool) :
    s.afterClear zs =
      { s with cmd := if zs then 0x07 else 0x03, done := true, ecode := .none, rdata := none,
               pending := s.pending.tail } := by
  rw [hbytes, hnibs, hlen, holen]
  rfl

/-! ### Zero buffers on the bus (20_memory.md R42, R43) -/

/-- Above the registers every address is a cell or RAZ, in any instance: where all cells are 0, the bus shows 0. -/
theorem State.busRead_of_cells_zero {a : Byte} (ha : 5 ≤ a.toNat) (hbytes : ∀ j, s.byteCell j = 0x00)
    (hnibs : ∀ k, s.nibCell k = 0) : s.busRead a = 0x00 := by
  rw [State.busRead, regAt_of_le s.cfg ha]
  split_ifs
  · exact hbytes _
  · exact congrArg zext8 (hnibs _)
  · rfl

theorem State.afterClear_busRead {a : Byte} (ha : 5 ≤ a.toNat) (zs : Bool) : (s.afterClear zs).busRead a = 0x00 :=
  State.busRead_of_cells_zero ha (s.afterClear_byteCell zs) (s.afterClear_nibCell zs)

end Sys2Proof.Machine

namespace Sys2Proof.Proofs

open Sys2Proof.Machine

/-- Settles O41 (42_control_commands.md R110): NOP leaves `State.afterNop`, whose STATUS is 0x01 whatever went before;
under the invariant an error had set OLEN to 0, which NOP keeps. -/
theorem nopReportsSuccess : Obligations.NopReportsSuccess := by
  refine ⟨exec_nop_eq_afterNop, exec_wr_nop, fun zs => ?_, fun s zs hinv herr => ?_, fun s _ => ?_⟩
  · exact ⟨_, exec_nop_eq_afterNop State.reset zs, State.reset.afterNop_status zs⟩
  · exact ⟨_, exec_nop_eq_afterNop s zs, s.afterNop_status zs, rfl, State.afterNop_olen_of_error hinv herr zs⟩
  · exact ⟨_, (exec_wr_nop s false).trans (exec_nop_eq_afterNop s false), s.afterNop_status false⟩

/-- Settles O42 (42_control_commands.md R111): CLEAR leaves `State.afterClear`, the reset state but for CMD and DONE, in
which every address above the registers reads 0. -/
theorem clearZeroesBuffersAndCounts : Obligations.ClearZeroesBuffersAndCounts := by
  refine ⟨fun s zs => ?_, exec_wr_clear, fun s zs hbytes hnibs hlen holen => ?_, fun s => ?_⟩
  · exact ⟨_, exec_clear_eq_afterClear s zs, s.afterClear_byteCell zs, s.afterClear_nibCell zs, rfl, rfl, rfl, rfl⟩
  · rw [exec_clear_eq_afterClear, State.afterClear_of_zeros hbytes hnibs hlen holen]
  · have hbyte : 5 ≤ (byteAddr 0).toNat := by decide
    have hnib : 5 ≤ (nibAddr 31).toNat := by decide
    exact ⟨_, (exec_wr_clear s false).trans (exec_clear_eq_afterClear s false), State.afterClear_busRead hbyte false,
      State.afterClear_busRead hnib false, rfl, s.afterClear_status false⟩

end Sys2Proof.Proofs
end

section
/-! PROOFS. The family of 60_exceptions.md: O27 (INVALID_LENGTH) and O28 (LENGTH_RANGE), with the state that a failed
command leaves and the checks at which PACK and UNPACK fail. -/

namespace Sys2Proof.Machine

variable {s : State}

/-! ### The state after a command that fails (41_nibble_packing.md R91, 60_exceptions.md R120) -/

/-- The state that a command written as the byte `c` leaves when it fails with `e` (`State.complete_fail_issue`). -/
def State.afterError (c : Byte) (e : ECode) (s : State) : State :=
  { s with
    cmd := c
    done := true
    ecode := e
    olen := 0x00
    rdata := none
    pending := s.pending.tail }

theorem State.complete_fail_issue (s : State) (c : Byte) (e : ECode) :
    ((s.issue c).fail e).complete none = s.afterError c e := rfl

/-! ### The checks that fail (60_exceptions.md R121, R122) -/

/-- The first check of PACK (60_exceptions.md R121). -/
theorem exec_pack_of_odd (zs : Bool) (hodd : s.count % 2 = 1) :
    exec (.pack zs) s = .next (s.afterError (if zs then 0x05 else 0x01) .invalidLength) := by
  have hbody := (s.issue (encodeCommand (.pack zs))).packBody_odd zs hodd
  rw [exec_pack, State.perform, hbody, State.complete_fail_issue, encodeCommand_pack]

/-- The second check of PACK, which only an even LEN reaches (60_exceptions.md R122). -/
theorem exec_pack_of_range (zs : Bool) (heven : s.count % 2 = 0) (hrange : s.cfg.nmax < s.count) :
    exec (.pack zs) s = .next (s.afterError (if zs then 0x05 else 0x01) .lengthRange) := by
  have hbody := (s.issue (encodeCommand (.pack zs))).packBody_range zs heven hrange
  rw [exec_pack, State.perform, hbody, State.complete_fail_issue, encodeCommand_pack]

/-- The only check of UNPACK (60_exceptions.md R122). -/
theorem exec_unpack_of_range (zs : Bool) (hrange : s.cfg.bmax < s.count) :
    exec (.unpack zs) s = .next (s.afterError (if zs then 0x06 else 0x02) .lengthRange) := by
  have hbody := (s.issue (encodeCommand (.unpack zs))).unpackBody_range zs hrange
  rw [exec_unpack, State.perform, hbody, State.complete_fail_issue, encodeCommand_unpack]

/-! ### The code after each outcome -/

@[simp] theorem State.afterError_ecode (s : State) (c : Byte) (e : ECode) : (s.afterError c e).ecode = e := rfl

@[simp] theorem State.afterUnpack_ecode (s : State) (zs : Bool) : (s.afterUnpack zs).ecode = .none := rfl

@[simp] theorem State.afterNop_ecode (s : State) (zs : Bool) : (s.afterNop zs).ecode = .none := rfl

@[simp] theorem State.afterClear_ecode (s : State) (zs : Bool) : (s.afterClear zs).ecode = .none := rfl

end Sys2Proof.Machine

namespace Sys2Proof.Proofs

open Sys2Proof.Machine

/-- Settles O27 (60_exceptions.md R121): an odd LEN fails PACK's first check; UNPACK has the range check only, and NOP
and CLEAR always end in NONE. -/
theorem oddPackLengthIsInvalidLength : Obligations.OddPackLengthIsInvalidLength := by
  refine ⟨fun _ zs hodd => exec_pack_of_odd zs hodd, fun s zs => ?_, fun s zs => ?_, fun s zs => ?_⟩
  · rcases Nat.lt_or_ge s.cfg.bmax s.count with hrange | hfits
    · exact ⟨_, exec_unpack_of_range zs hrange, by simp⟩
    · exact ⟨_, exec_unpack_of_fits zs hfits, by simp⟩
  · exact ⟨_, exec_nop_eq_afterNop s zs, by simp⟩
  · exact ⟨_, exec_clear_eq_afterClear s zs, by simp⟩

/-- Settles O28 (60_exceptions.md R122): an even LEN above NMAX fails PACK's second check, a LEN above BMAX the only
check of UNPACK. -/
theorem lengthBeyondCapacityIsLengthRange : Obligations.LengthBeyondCapacityIsLengthRange :=
  ⟨fun _ zs heven hrange => exec_pack_of_range zs heven hrange, fun _ zs hrange => exec_unpack_of_range zs hrange⟩

end Sys2Proof.Proofs
end

section
/-! PROOFS. The family of the encoding and the step: O1 (decode of encode), O3 (every BUS word), O4 (words written out),
O6 (a placed table word), O5 (a step with an access), O7 (the idle block) and O8 (no step stops). -/

namespace Sys2Proof

/-! ### Decoding a number that comes from a word (30_encoding.md R60) -/

theorem decode_bus_toNat (w : BusWord) : decode .bus w.toNat = .ok (decodeBus w) := by
  rw [decode, if_pos w.isLt, BitVec.ofNat_toNat, BitVec.setWidth_eq]

theorem decode_cmd8_toNat (c : Byte) : decode .cmd8 c.toNat = (decodeCommand c).map Command.instr := by
  rw [decode, if_pos c.isLt, BitVec.ofNat_toNat, BitVec.setWidth_eq]

theorem decode_encodeCommand (k : Command) : decode .cmd8 (encodeCommand k).toNat = .ok k.instr := by
  rw [decode_cmd8_toNat, decodeCommand_encodeCommand]
  rfl

theorem eq_of_decode_bus {w : Nat} {i : Instr} (h : (decode .bus w).toOption = some i) :
    i = decodeBus (BitVec.ofNat 17 w) := by
  rw [decode] at h
  split_ifs at h
  · exact (Option.some.inj h).symm
  · cases h

theorem exists_command_of_decode_cmd8 {w : Nat} {i : Instr} (h : (decode .cmd8 w).toOption = some i) :
    ∃ k : Command, decodeCommand (BitVec.ofNat 8 w) = .ok k ∧ i = k.instr := by
  rw [decode] at h
  split_ifs at h
  · cases hk : decodeCommand (BitVec.ofNat 8 w) with
    | error r =>
      rw [hk] at h
      cases h
    | ok k =>
      rw [hk] at h
      exact ⟨k, rfl, (Option.some.inj h).symm⟩
  · cases h

/-- Everything the table decoder accepts: a legal command byte in 8 bits, a BUS word in another width. -/
theorem decodeTableWord_cases {nbits w : Nat} {i : Instr} (h : decodeTableWord nbits w = some i) :
    (nbits = 8 ∧ ∃ k : Command, decodeCommand (BitVec.ofNat 8 w) = .ok k ∧ i = k.instr) ∨
    (nbits ≠ 8 ∧ i = decodeBus (BitVec.ofNat 17 w)) := by
  unfold decodeTableWord at h
  split_ifs at h with h8
  · exact .inl ⟨h8, exists_command_of_decode_cmd8 h⟩
  · exact .inr ⟨h8, eq_of_decode_bus h⟩

/-! ### The two kinds of BUS word (30_encoding.md R60, R69) -/

theorem decodeBus_of_write {w : BusWord} (h : busWe w = true) : decodeBus w = .wr (busAddr w) (busData w) := by
  rw [decodeBus, if_pos h]

theorem decodeBus_of_read {w : BusWord} (h : busWe w = false) : decodeBus w = .rd (busAddr w) := by
  rw [decodeBus, h]
  rfl

/-- Without its DATA bits a word is its WE and ADDR alone. -/
theorem assembleBus_ushiftRight (we : BitVec 1) (a d e : Byte) :
    assembleBus we a d >>> 8 = assembleBus we a e >>> 8 := by
  apply BitVec.eq_of_getLsbD_eq
  intro i _
  have hnotData : ¬ 8 + i < 8 := by omega
  rw [BitVec.getLsbD_ushiftRight, BitVec.getLsbD_ushiftRight, getLsbD_assembleBus, getLsbD_assembleBus,
    if_neg hnotData, if_neg hnotData]

end Sys2Proof

namespace Sys2Proof.Machine

variable {s : State}

/-! ### The access that is placed next (log 4, 8) -/

theorem fetchWord_of_eq_eight (w : Nat) : fetchWord 8 w = cmdAccess (BitVec.ofNat 8 w) := rfl

theorem fetchWord_of_ne_eight {nbits : Nat} (h : nbits ≠ 8) (w : Nat) : fetchWord nbits w = BitVec.ofNat 17 w :=
  if_neg h

theorem step_withFetchWord (s : State) (nbits w : Nat) :
    step (s.withFetchWord nbits w) = exec (decodeBus (fetchWord nbits w)) (s.withFetchWord nbits w) :=
  step_of_access (rest := s.pending) rfl

/-! ### Every instruction completes its access (30_encoding.md R69, 60_exceptions.md R120) -/

theorem exec_wr_answers (s : State) (a d : Byte) :
    ∃ t, exec (.wr a d) s = .next t ∧ t.pending = s.pending.tail := by
  obtain ⟨_, _, hpending, _⟩ := s.busWrite_frame a d
  exact ⟨_, exec_wr s a d, by rw [State.complete_pending, hpending]⟩

/-- No instruction stops, and each takes its own access off the port and no other: a command does so as the write to
CMD that it is. -/
theorem exec_answers (i : Instr) (s : State) : ∃ t, exec i s = .next t ∧ t.pending = s.pending.tail := by
  cases i with
  | rd a => exact ⟨_, exec_rd s a, rfl⟩
  | wr a d => exact exec_wr_answers s a d
  | nop zs => exact exec_command s (.nop zs) ▸ exec_wr_answers s cmdAddr _
  | pack zs => exact exec_command s (.pack zs) ▸ exec_wr_answers s cmdAddr _
  | unpack zs => exact exec_command s (.unpack zs) ▸ exec_wr_answers s cmdAddr _
  | clear zs => exact exec_command s (.clear zs) ▸ exec_wr_answers s cmdAddr _

end Sys2Proof.Machine

namespace Sys2Proof.Proofs

open Sys2Proof.Machine

/-- Settles O1 (30_encoding.md R60, R66, R67): an access decodes from its assembled word, a command from its byte. -/
theorem decodeOfEncodeIsTheInstruction : Obligations.DecodeOfEncodeIsTheInstruction := by
  intro i
  cases i with
  | rd a => exact (decode_bus_toNat _).trans (congrArg Except.ok (decodeBus_read a 0))
  | wr a d => exact (decode_bus_toNat _).trans (congrArg Except.ok (decodeBus_write a d))
  | nop zs => exact decode_encodeCommand (.nop zs)
  | pack zs => exact decode_encodeCommand (.pack zs)
  | unpack zs => exact decode_encodeCommand (.unpack zs)
  | clear zs => exact decode_encodeCommand (.clear zs)

/-- Settles O3 (30_encoding.md R60, R69; log 9): WE chooses the kind, and a word is its three fields, of which a read
keeps all but DATA. -/
theorem everyBusWordIsAnAccess : Obligations.EveryBusWordIsAnAccess := by
  intro w
  refine ⟨fun hwrite => ?_, fun hread => ?_⟩
  · have hwe : busWe w = true := hwrite
    have hfields := assembleBus_fields w
    rw [hwe] at hfields
    rw [decodeBus_of_write hwe]
    exact ⟨⟨_, _, rfl⟩, hfields⟩
  · have hwe : busWe w = false := hread
    have hfields := assembleBus_fields w
    rw [hwe] at hfields
    rw [decodeBus_of_read hwe]
    refine ⟨⟨_, rfl⟩, ?_⟩
    calc busWord (.rd (busAddr w)) >>> 8
      _ = assembleBus 0 (busAddr w) (busData w) >>> 8 := assembleBus_ushiftRight 0 _ _ _
      _ = w >>> 8 := congrArg (fun v : BusWord => v >>> 8) hfields

/-- Settles O6 (30_encoding.md R60, 41_nibble_packing.md R90): a BUS word is fetched as it stands; a command byte is
fetched as the write to CMD that the command is. -/
theorem placedTableWordRunsAsItsInstruction : Obligations.PlacedTableWordRunsAsItsInstruction := by
  intro s nbits w i h
  rw [step_withFetchWord]
  rcases decodeTableWord_cases h with ⟨rfl, k, hk, rfl⟩ | ⟨hne, rfl⟩
  · rw [fetchWord_of_eq_eight, decodeBus_cmdAccess]
    exact exec_wr_of_encodeCommand _ (encodeCommand_of_decodeCommand hk)
  · rw [fetchWord_of_ne_eight hne]

/-- Settles O4 (30_encoding.md sections 1 and 3): closed words, so the decoder's own evaluation of each is the proof. -/
theorem writtenOutWordsDecode : Obligations.WrittenOutWordsDecode := by
  refine ⟨?_, ?_, ?_, ?_, ?_, ?_, ?_, ?_⟩ <;> decide

/-- Settles O5 (00_scope.md R7, R13): the step fetches the first event, and its instruction takes that event off. -/
theorem stepRunsTheDecodedAccess : Obligations.StepRunsTheDecodedAccess := by
  intro s w rest hp
  obtain ⟨t, ht, hpending⟩ := exec_answers (decodeBus w) s
  rw [hp, List.tail_cons] at hpending
  exact ⟨step_of_access hp, t, (step_of_access hp).trans ht, hpending⟩

/-- Settles O7 (60_exceptions.md R137; log 2). -/
theorem idleBlockHoldsItsState : Obligations.IdleBlockHoldsItsState :=
  fun _ => step_of_idle

/-- Settles O8 (60_exceptions.md R120, R124): one equation of `step` for each event that can be first, and
`exec_answers` for the one that runs an instruction. -/
theorem everyStepHasANextState : Obligations.EveryStepHasANextState := by
  intro s
  match hp : s.pending with
  | [] => exact ⟨_, step_of_idle hp⟩
  | .reset :: _ => exact ⟨_, step_of_reset hp⟩
  | .accessInReset _ :: _ => exact ⟨_, step_of_accessInReset hp⟩
  | .access w :: _ =>
    obtain ⟨t, ht, _⟩ := exec_answers (decodeBus w) s
    exact ⟨t, (step_of_access hp).trans ht⟩

end Sys2Proof.Proofs
end

section
/-! PROOFS. The family of reset and the invariant: O13 (every step keeps the invariant), O12 (the reset state), O11 (the
power-on state) and O10 (an access during reset). A bus write keeps the shape of the buffers and the coherence of the
registers; whatever else a step does either leaves the block as it is or makes it the reset state. -/

namespace Sys2Proof.Machine

variable {s t : State}

/-! ### States of the same block -/

theorem State.sameBlock_complete (s : State) (r : Option Byte) : s.sameBlock (s.complete r) :=
  ⟨rfl, rfl, rfl, rfl, rfl, rfl, rfl, rfl⟩

theorem State.sameBlock_afterReset (s : State) : (State.resetOf s.cfg).sameBlock s.afterReset :=
  ⟨rfl, rfl, rfl, rfl, rfl, rfl, rfl, rfl⟩

/-- The invariant speaks of the block alone. -/
theorem State.Inv_of_sameBlock (h : s.Inv) (hst : s.sameBlock t) : t.Inv := by
  obtain ⟨hcfg, hcmd, _, hdone, hecode, holen, hbytes, hnibs⟩ := hst
  unfold State.Inv State.shaped State.coherent
  rw [hcfg, hcmd, hdone, hecode, holen, hbytes, hnibs]
  exact h

/-! ### A bus write keeps the shape (10_state.md R24, R25) -/

theorem State.perform_shaped (h : s.shaped) (k : Command) : (s.perform k).shaped := by
  obtain ⟨hcfg, hbytes, hnibs⟩ := h
  cases k with
  | nop zs => exact ⟨hcfg, hbytes, hnibs⟩
  | clear zs => exact ⟨hcfg, Memory.wf_zeros _, Memory.wf_zeros _⟩
  | pack zs =>
    rw [State.perform]
    rcases s.packBody_cases zs with ⟨_, e⟩ | ⟨_, _, e⟩ | ⟨_, _, e⟩ <;> rw [e]
    · exact ⟨hcfg, hbytes, hnibs⟩
    · exact ⟨hcfg, hbytes, hnibs⟩
    · refine ⟨hcfg, Memory.wf_table .., ?_⟩
      cases zs
      · exact hnibs
      · exact Memory.wf_zeros _
  | unpack zs =>
    rw [State.perform]
    rcases s.unpackBody_cases zs with ⟨_, e⟩ | ⟨_, e⟩ <;> rw [e]
    · exact ⟨hcfg, hbytes, hnibs⟩
    · refine ⟨hcfg, ?_, Memory.wf_table ..⟩
      cases zs
      · exact hbytes
      · exact Memory.wf_zeros _

theorem State.writeCmd_shaped (h : s.shaped) (c : Byte) : (s.writeCmd c).shaped := by
  rcases s.writeCmd_cases c with ⟨_, e⟩ | ⟨k, _, e⟩ <;> rw [e]
  · exact h
  · exact State.perform_shaped (s := s.issue c) h k

theorem State.busWrite_shaped (h : s.shaped) (a d : Byte) : (s.busWrite a d).shaped := by
  obtain ⟨hcfg, hbytes, hnibs⟩ := h
  rcases s.busWrite_cases a d with ⟨_, e⟩ | ⟨_, e⟩ | ⟨j, _, hj, e⟩ | ⟨k, _, hk, e⟩ | e <;> rw [e]
  · exact State.writeCmd_shaped ⟨hcfg, hbytes, hnibs⟩ d
  · exact ⟨hcfg, hbytes, hnibs⟩
  · exact ⟨hcfg, Memory.wf_write d hbytes hj, hnibs⟩
  · exact ⟨hcfg, hbytes, Memory.wf_write _ hnibs hk⟩
  · exact ⟨hcfg, hbytes, hnibs⟩

/-! ### A bus write keeps the registers coherent (41_nibble_packing.md R91, R99) -/

/-- OLEN holds at most `2 * BMAX` after a command if it did before: a conversion succeeds only on a LEN within its
check, an error and CLEAR leave 0, and NOP keeps OLEN. -/
theorem State.perform_olen_le (h : s.olen.toNat ≤ 2 * s.cfg.bmax) (k : Command) :
    (s.perform k).olen.toNat ≤ 2 * s.cfg.bmax := by
  have hmod : ∀ n, (BitVec.ofNat 8 n).toNat ≤ n := fun n => Nat.mod_le n _
  cases k with
  | nop zs => exact h
  | clear zs => exact Nat.zero_le _
  | pack zs =>
    rw [State.perform]
    rcases s.packBody_cases zs with ⟨_, e⟩ | ⟨_, _, e⟩ | ⟨_, hfits, e⟩ <;> rw [e]
    · exact Nat.zero_le _
    · exact Nat.zero_le _
    · exact (hmod _).trans ((Nat.div_le_self ..).trans hfits)
  | unpack zs =>
    rw [State.perform]
    rcases s.unpackBody_cases zs with ⟨_, e⟩ | ⟨hfits, e⟩ <;> rw [e]
    · exact Nat.zero_le _
    · exact (hmod _).trans (Nat.mul_le_mul_left 2 hfits)

theorem State.writeCmd_olen_le (h : s.olen.toNat ≤ 2 * s.cfg.bmax) (c : Byte) :
    (s.writeCmd c).olen.toNat ≤ 2 * s.cfg.bmax := by
  rcases s.writeCmd_cases c with ⟨_, e⟩ | ⟨k, _, e⟩ <;> rw [e]
  · exact Nat.zero_le _
  · exact State.perform_olen_le (s := s.issue c) h k

theorem State.writeCmd_olen_of_error (s : State) (c : Byte) (h : (s.writeCmd c).ecode ≠ .none) :
    (s.writeCmd c).olen = 0x00 := by
  rw [s.writeCmd_eq_fail c h, State.fail_olen]

/-- Each code can be raised only by a byte that names a command with its check (30_encoding.md R68, 60_exceptions.md
R121, R122). -/
theorem State.writeCmd_ecode_of_byte (s : State) (c : Byte) :
    ((s.writeCmd c).ecode = .illegalCmd ↔ cmdRsv c ≠ 0) ∧
    ((s.writeCmd c).ecode = .invalidLength → cmdOp c = 0b01) ∧
    ((s.writeCmd c).ecode = .lengthRange → cmdOp c = 0b01 ∨ cmdOp c = 0b10) := by
  rw [s.writeCmd_ecode c]
  split_ifs with hrsv hodd hrange
  · exact ⟨iff_of_true rfl hrsv, nofun, nofun⟩
  · exact ⟨iff_of_false nofun hrsv, fun _ => hodd.1, nofun⟩
  · exact ⟨iff_of_false nofun hrsv, nofun, fun _ => hrange.imp And.left And.left⟩
  · exact ⟨iff_of_false nofun hrsv, nofun, nofun⟩

theorem State.writeCmd_coherent (h : s.coherent) (c : Byte) : (s.writeCmd c).coherent := by
  obtain ⟨_, _, holen, _⟩ := h
  obtain ⟨hcfg, hcmd, hdone, _⟩ := s.writeCmd_frame c
  obtain ⟨hillegal, hodd, hrange⟩ := s.writeCmd_ecode_of_byte c
  refine ⟨fun hnot => ?_, s.writeCmd_olen_of_error c, ?_, ?_, ?_, ?_⟩
  · rw [hdone] at hnot
    cases hnot
  · rw [hcfg]
    exact State.writeCmd_olen_le holen c
  all_goals rw [hcmd]; assumption

theorem State.busWrite_coherent (h : s.coherent) (a d : Byte) : (s.busWrite a d).coherent := by
  rcases s.busWrite_cases a d with ⟨_, e⟩ | ⟨_, e⟩ | ⟨_, _, _, e⟩ | ⟨_, _, _, e⟩ | e <;> rw [e]
  · exact State.writeCmd_coherent h d
  all_goals exact h

theorem State.busWrite_Inv (h : s.Inv) (a d : Byte) : (s.busWrite a d).Inv :=
  ⟨State.busWrite_shaped h.1 a d, State.busWrite_coherent h.2 a d⟩

/-! ### Reset (10_state.md R34, 70_reset_and_hazards.md R140-R142) -/

theorem State.resetOf_Inv {c : Config} (hc : c.wf) : (State.resetOf c).Inv := by
  have hrsv : cmdRsv 0x00 = 0 := by decide
  refine ⟨⟨hc, Memory.wf_zeros _, Memory.wf_zeros _⟩, fun _ => ⟨rfl, rfl, rfl⟩, fun _ => rfl, Nat.zero_le _, ?_, nofun,
    nofun⟩
  exact iff_of_false nofun (not_not_intro hrsv)

theorem State.ignoreAccess_of_write {w : BusWord} (h : busWe w = true) : s.ignoreAccess w = s.complete none := by
  rw [State.ignoreAccess, decodeBus_of_write h]

theorem State.ignoreAccess_of_read {w : BusWord} (h : busWe w = false) :
    s.ignoreAccess w = (s.complete (some (Config.readInReset s.draws))).drawn := by
  rw [State.ignoreAccess, decodeBus_of_read h]

theorem State.ignoreAccess_pending (s : State) (w : BusWord) : (s.ignoreAccess w).pending = s.pending.tail := by
  rcases State.ignoreAccess_cases (s := s) w with e | e <;> rw [e] <;> rfl

theorem State.powerOn_shaped {c : Config} (hc : c.wf) : (State.powerOn c).shaped :=
  ⟨hc, Memory.wf_table .., Memory.wf_table ..⟩

end Sys2Proof.Machine

namespace Sys2Proof.Proofs

open Sys2Proof.Machine

/-- Settles O13: of all a step can do, a write keeps shape and coherence, a reset gives the reset state of the same
configuration, and the rest leaves the block as it is. -/
theorem everyStepKeepsTheInvariant : Obligations.EveryStepKeepsTheInvariant := by
  intro s t hinv h
  rcases step_cases h with ⟨_, rfl⟩ | ⟨_, _, _, _, _, rfl⟩ | ⟨_, _, a, d, _, _, rfl⟩ | ⟨_, _, rfl⟩ | ⟨w, _, _, rfl⟩
  · exact hinv
  · exact State.Inv_of_sameBlock hinv (s.sameBlock_complete _)
  · exact State.Inv_of_sameBlock (State.busWrite_Inv hinv a d) (State.sameBlock_complete _ none)
  · obtain ⟨⟨hcfg, _⟩, _⟩ := hinv
    exact State.Inv_of_sameBlock (State.resetOf_Inv hcfg) s.sameBlock_afterReset
  · exact State.Inv_of_sameBlock hinv (s.ignoreAccess_sameBlock w)

/-- Settles O11 (70_reset_and_hazards.md R140, R141): both buffers are tables of exactly their cells, and reset reads no
element of the state. -/
theorem powerOnStateIsShapedAndResets : Obligations.PowerOnStateIsShapedAndResets :=
  fun _ hc => ⟨State.powerOn_shaped hc, step_of_reset rfl⟩

/-- Settles O10 (70_reset_and_hazards.md R142): an access that is not performed only completes; a read draws the byte it
returns. -/
theorem accessDuringResetIsNotPerformed : Obligations.AccessDuringResetIsNotPerformed := by
  intro s w rest hp
  have hpending : (s.ignoreAccess w).pending = rest := by rw [State.ignoreAccess_pending, hp, List.tail_cons]
  refine ⟨_, step_of_accessInReset hp, s.ignoreAccess_sameBlock w, hpending, fun hwrite => ?_, fun hread => ?_⟩
  · rw [State.ignoreAccess_of_write hwrite, State.complete_rdata]
  · rw [State.ignoreAccess_of_read hread]
    exact ⟨_, rfl⟩

/-- Settles O12 (10_state.md R34): zero buffers are canonical, and the zero registers are coherent. -/
theorem resetStateSatisfiesTheInvariant : Obligations.ResetStateSatisfiesTheInvariant :=
  ⟨State.resetOf_Inv (by decide), fun _ => State.resetOf_Inv⟩

end Sys2Proof.Proofs
end

section
/-! PROOFS. The family of host accesses: O22 (only the addressed element changes), O23 (repeated accesses) and O24
(writes before the command commute), with what a write outside CMD leaves in every element of the address map. -/

namespace Sys2Proof.Machine

variable {s : State} {c : Config} {a b : Byte}

/-! ### The map names no element twice (20_memory.md R42) -/

theorem eq_of_regAt_len (ha : regAt c a = .len) (hb : regAt c b = .len) : a = b :=
  (regAt_eq_len ha).trans (regAt_eq_len hb).symm

theorem eq_of_regAt_byte {j : Nat} (ha : regAt c a = .byte j) (hb : regAt c b = .byte j) : a = b := by
  obtain ⟨haddr, _⟩ := regAt_eq_byte ha
  obtain ⟨hbddr, _⟩ := regAt_eq_byte hb
  exact BitVec.eq_of_toNat_eq (haddr.trans hbddr.symm)

theorem eq_of_regAt_nib {k : Nat} (ha : regAt c a = .nib k) (hb : regAt c b = .nib k) : a = b := by
  obtain ⟨haddr, _⟩ := regAt_eq_nib ha
  obtain ⟨hbddr, _⟩ := regAt_eq_nib hb
  exact BitVec.eq_of_toNat_eq (haddr.trans hbddr.symm)

/-! ### What a write outside CMD leaves (40_register_access.md R83-R86) -/

theorem State.busWrite_cfg (s : State) (a d : Byte) : (s.busWrite a d).cfg = s.cfg := by
  obtain ⟨hcfg, _⟩ := s.busWrite_frame a d
  exact hcfg

/-- LEN and every cell after a write outside CMD: the element that the map gives the address, and no other. -/
theorem State.busWrite_elements (ha : a ≠ cmdAddr) (d : Byte) :
    (s.busWrite a d).len = (if regAt s.cfg a = .len then d else s.len) ∧
    (∀ j, (s.busWrite a d).byteCell j = if regAt s.cfg a = .byte j then d else s.byteCell j) ∧
    (∀ k, (s.busWrite a d).nibCell k = if regAt s.cfg a = .nib k then lowNibble d else s.nibCell k) := by
  rw [State.busWrite]
  cases hr : regAt s.cfg a with
  | cmd => exact absurd (regAt_eq_cmd hr) ha
  | len | status | olen | cap | reserved => simp
  | byte j => simp [Memory.read_write, State.byteCell_eq, eq_comm]
  | nib k => simp [Memory.read_write, State.nibCell_eq, eq_comm]

theorem State.busWrite_len (ha : a ≠ cmdAddr) (d : Byte) :
    (s.busWrite a d).len = if regAt s.cfg a = .len then d else s.len := by
  obtain ⟨hlen, _, _⟩ := State.busWrite_elements (s := s) ha d
  exact hlen

theorem State.busWrite_byteCell (ha : a ≠ cmdAddr) (d : Byte) (j : Nat) :
    (s.busWrite a d).byteCell j = if regAt s.cfg a = .byte j then d else s.byteCell j := by
  obtain ⟨_, hbyte, _⟩ := State.busWrite_elements (s := s) ha d
  exact hbyte j

theorem State.busWrite_nibCell (ha : a ≠ cmdAddr) (d : Byte) (k : Nat) :
    (s.busWrite a d).nibCell k = if regAt s.cfg a = .nib k then lowNibble d else s.nibCell k := by
  obtain ⟨_, _, hnib⟩ := State.busWrite_elements (s := s) ha d
  exact hnib k

/-- No other address reads the element that a write outside CMD changed. -/
theorem State.busRead_busWrite_of_ne (ha : a ≠ cmdAddr) (hb : b ≠ a) (d : Byte) :
    (s.busWrite a d).busRead b = s.busRead b := by
  obtain ⟨hcmd, hdone, hecode, holen⟩ := s.busWrite_frame_of_ne ha d
  rw [State.busRead, State.busRead, s.busWrite_cfg]
  cases hr : regAt s.cfg b with
  | cmd => exact hcmd
  | len => exact (State.busWrite_len ha d).trans (if_neg fun h => hb (eq_of_regAt_len hr h))
  | status => exact State.status_congr hdone hecode
  | olen => exact holen
  | cap => rfl
  | byte j => exact (State.busWrite_byteCell ha d j).trans (if_neg fun h => hb (eq_of_regAt_byte hr h))
  | nib k =>
    exact congrArg zext8 ((State.busWrite_nibCell ha d k).trans (if_neg fun h => hb (eq_of_regAt_nib hr h)))
  | reserved => rfl

/-! ### Two writes outside CMD (20_memory.md R48, 70_reset_and_hazards.md R144) -/

/-- A write outside CMD does not look at the model's own fields. -/
theorem State.busWrite_complete (ha : a ≠ cmdAddr) (d : Byte) (r : Option Byte) :
    (s.complete r).busWrite a d = (s.busWrite a d).complete r := by
  rw [State.busWrite, State.busWrite, State.complete_cfg]
  cases hr : regAt s.cfg a with
  | cmd => exact absurd (regAt_eq_cmd hr) ha
  | len | status | olen | cap | byte j | nib k | reserved => rfl

theorem State.busWrite_busWrite (ha : a ≠ cmdAddr) (d : Byte) :
    (s.busWrite a d).busWrite a d = s.busWrite a d := by
  rw [State.busWrite, s.busWrite_cfg, State.busWrite]
  cases hr : regAt s.cfg a with
  | cmd => exact absurd (regAt_eq_cmd hr) ha
  | len | status | olen | cap | reserved => rfl
  | byte j => exact congrArg s.setBytes (Memory.write_write s.byteBuf j d)
  | nib k => exact congrArg s.setNibs (Memory.write_write s.nibBuf k _)

/-- Two writes outside CMD leave CMD, DONE, ECODE and OLEN. -/
theorem State.busWrite_busWrite_frame_of_ne (ha : a ≠ cmdAddr) (hb : b ≠ cmdAddr) (d e : Byte) :
    ((s.busWrite a d).busWrite b e).cmd = s.cmd ∧ ((s.busWrite a d).busWrite b e).done = s.done ∧
      ((s.busWrite a d).busWrite b e).ecode = s.ecode ∧ ((s.busWrite a d).busWrite b e).olen = s.olen := by
  obtain ⟨hcmd, hdone, hecode, holen⟩ := s.busWrite_frame_of_ne ha d
  obtain ⟨hcmd', hdone', hecode', holen'⟩ := (s.busWrite a d).busWrite_frame_of_ne hb e
  exact ⟨hcmd'.trans hcmd, hdone'.trans hdone, hecode'.trans hecode, holen'.trans holen⟩

/-- Writes to two addresses change two elements; canonical buffers that read alike are the same data. -/
theorem State.busWrite_comm (hs : s.shaped) (ha : a ≠ cmdAddr) (hb : b ≠ cmdAddr) (hab : a ≠ b) (d e : Byte) :
    ((s.busWrite a d).busWrite b e).sameBlock ((s.busWrite b e).busWrite a d) := by
  obtain ⟨hcmd, hdone, hecode, holen⟩ := State.busWrite_busWrite_frame_of_ne (s := s) ha hb d e
  obtain ⟨hcmd', hdone', hecode', holen'⟩ := State.busWrite_busWrite_frame_of_ne (s := s) hb ha e d
  obtain ⟨_, hbytes, hnibs⟩ := State.busWrite_shaped (State.busWrite_shaped hs a d) b e
  obtain ⟨_, hbytes', hnibs'⟩ := State.busWrite_shaped (State.busWrite_shaped hs b e) a d
  rw [State.busWrite_cfg, State.busWrite_cfg] at hbytes hnibs hbytes' hnibs'
  refine ⟨?_, hcmd'.trans hcmd.symm, ?_, hdone'.trans hdone.symm, hecode'.trans hecode.symm,
    holen'.trans holen.symm, ?_, ?_⟩
  · rw [State.busWrite_cfg, State.busWrite_cfg, State.busWrite_cfg, State.busWrite_cfg]
  · rw [State.busWrite_len ha, State.busWrite_len hb, State.busWrite_len hb, State.busWrite_len ha,
      State.busWrite_cfg, State.busWrite_cfg]
    exact ite_ite_comm _ _ _ _ fun h h' => hab (eq_of_regAt_len h h')
  · refine Memory.eq_of_read hbytes' hbytes fun j => ?_
    rw [← State.byteCell_eq, ← State.byteCell_eq, State.busWrite_byteCell ha, State.busWrite_byteCell hb,
      State.busWrite_byteCell hb, State.busWrite_byteCell ha, State.busWrite_cfg, State.busWrite_cfg]
    exact ite_ite_comm _ _ _ _ fun h h' => hab (eq_of_regAt_byte h h')
  · refine Memory.eq_of_read hnibs' hnibs fun k => ?_
    rw [← State.nibCell_eq, ← State.nibCell_eq, State.busWrite_nibCell ha, State.busWrite_nibCell hb,
      State.busWrite_nibCell hb, State.busWrite_nibCell ha, State.busWrite_cfg, State.busWrite_cfg]
    exact ite_ite_comm _ _ _ _ fun h h' => hab (eq_of_regAt_nib h h')

/-! ### PACK.ZS twice (20_memory.md R48) -/

/-- With every nibble 0, all that PACK leaves is 0: the result of zeros and the fill are the same byte. -/
theorem State.packedByte_of_nibs_zero (h : ∀ k, s.nibCell k = 0) (j : Nat) : s.packedByte j = 0x00 := by
  rw [State.packedByte, h, h]
  exact ite_self _

/-- The first PACK.ZS leaves LEN, so the second passes the same checks; it packs the zeroed source. -/
theorem exec_packZs_afterPack (heven : s.count % 2 = 0) (hfits : s.count ≤ s.cfg.nmax) :
    exec (.pack true) (s.afterPack true) = .next ((s.afterPack true).afterPack true) ∧
      ∀ j, ((s.afterPack true).afterPack true).byteCell j = 0x00 :=
  ⟨exec_pack_of_fits true heven hfits, fun j =>
    (State.afterPack_byteCell (s := s.afterPack true) true hfits j).trans
      (State.packedByte_of_nibs_zero (State.afterPack_nibCell true) j)⟩

end Sys2Proof.Machine

namespace Sys2Proof.Proofs

open Sys2Proof.Machine

/-- Settles O22 (40_register_access.md R86): a read completes and no more; a write outside CMD reaches the element that
the map gives its address. -/
theorem accessesChangeOnlyTheAddressedElement : Obligations.AccessesChangeOnlyTheAddressedElement := by
  refine ⟨fun s a => ⟨_, exec_rd s a, s.sameBlock_complete _⟩, fun s a d ha => ?_⟩
  obtain ⟨hcmd, hdone, hecode, holen⟩ := s.busWrite_frame_of_ne ha d
  refine ⟨_, exec_wr s a d, fun b hb => ?_, fun j hj => ?_, fun k hk => ?_, hdone, hecode, holen,
    State.status_congr hdone hecode, hcmd⟩
  · exact (State.busRead_congr rfl rfl rfl rfl rfl rfl rfl rfl b).trans (State.busRead_busWrite_of_ne ha hb d)
  · exact (State.busWrite_byteCell ha d j).trans (if_neg fun h => hj (regAt_eq_byte h).1)
  · exact (State.busWrite_nibCell ha d k).trans (if_neg fun h => hk (regAt_eq_nib h).1)

/-- Settles O23 (20_memory.md R48): a read depends on the block alone; a write outside CMD stores again what it stored;
a second PACK.ZS packs the zeros that the first one left, which a byte of the first result shows. -/
theorem repeatedAccesses : Obligations.RepeatedAccesses := by
  refine ⟨fun s a => ⟨_, exec_rd s a, s.sameBlock_complete _⟩, fun s t a hst => ?_, fun s a d ha => ?_,
    fun s heven hfits => ?_, ?_⟩
  · obtain ⟨hcfg, hcmd, hlen, hdone, hecode, holen, hbytes, hnibs⟩ := hst
    exact State.busRead_congr hcfg hcmd hlen hdone hecode holen hbytes hnibs a
  · refine ⟨_, _, exec_wr s a d, exec_wr _ a d, ?_⟩
    rw [State.busWrite_complete ha, State.busWrite_busWrite ha]
    exact State.sameBlock_complete _ none
  · obtain ⟨hsecond, hzero⟩ := exec_packZs_afterPack heven hfits
    exact ⟨_, _, (exec_wr_pack s true).trans (exec_pack_of_fits true heven hfits),
      (exec_wr_pack _ true).trans hsecond, hzero⟩
  · refine ⟨{ State.reset with len := 2, nibBuf := [(0, 1)] }, _, _, rfl, rfl, ?_⟩
    decide

/-- Settles O24 (70_reset_and_hazards.md R144): each write goes to an element of its own. -/
theorem writesBeforeTheCommandCommute : Obligations.WritesBeforeTheCommandCommute := by
  intro s a b d e hs ha hb hab
  refine ⟨_, _, _, _, exec_wr s a d, exec_wr _ b e, exec_wr s b e, exec_wr _ a d, ?_⟩
  rw [State.busWrite_complete ha, State.busWrite_complete hb]
  exact State.busWrite_comm hs ha hb hab d e

end Sys2Proof.Proofs
end

section
/-! PROOFS. The family of command outcomes: O29 (a failed command reissued) and O30 (a command does not depend on CMD
and STATUS), with what a CMD write leaves in two states that agree on what a command reads. -/

namespace Sys2Proof.Machine

variable {s t : State}

/-! ### A failed command again (60_exceptions.md R126) -/

/-- STATUS shows the code, so it determines it. -/
theorem State.ecode_of_status (h : t.status = s.status) : t.ecode = s.ecode := by
  rw [← ECode.ofCode_code t.ecode, ← t.status_ecode_field, h, s.status_ecode_field, ECode.ofCode_code]

/-- The checks of a CMD write read LEN and the capacity, which no error changes. -/
theorem State.writeCmd_ecode_congr (hcfg : t.cfg = s.cfg) (hlen : t.len = s.len) (c : Byte) :
    (t.writeCmd c).ecode = (s.writeCmd c).ecode := by
  rw [State.writeCmd_ecode, State.writeCmd_ecode, State.count_eq, State.count_eq, hcfg, hlen]

theorem exec_wr_cmdAddr_of_error {c : Byte} (h : (s.writeCmd c).ecode ≠ .none) :
    exec (.wr cmdAddr c) s = .next (s.afterError c (s.writeCmd c).ecode) := by
  rw [exec_wr_cmdAddr, s.writeCmd_eq_fail c h, State.complete_fail_issue, State.fail_ecode]

theorem exec_wr_cmdAddr_afterError {c : Byte} (h : (s.writeCmd c).ecode ≠ .none) :
    exec (.wr cmdAddr c) (s.afterError c (s.writeCmd c).ecode) =
      .next ((s.afterError c (s.writeCmd c).ecode).afterError c (s.writeCmd c).ecode) := by
  have hecode : ((s.afterError c (s.writeCmd c).ecode).writeCmd c).ecode = (s.writeCmd c).ecode :=
    State.writeCmd_ecode_congr (s := s) (t := s.afterError c _) rfl rfl c
  rw [exec_wr_cmdAddr_of_error (hecode ▸ h), hecode]

/-! ### What a command reads (10_state.md section 4) -/

/-- Two states agree on all that a command reads: the configuration, LEN and the buffers. -/
def State.sameOperands (s t : State) : Prop :=
  t.cfg = s.cfg ∧ t.len = s.len ∧ t.byteBuf = s.byteBuf ∧ t.nibBuf = s.nibBuf

/-- The body of PACK takes the same branch in both states and leaves the same results. -/
theorem State.packBody_congr (h : s.sameOperands t) (zs : Bool) :
    (s.packBody zs).sameOperands (t.packBody zs) ∧ (t.packBody zs).olen = (s.packBody zs).olen := by
  obtain ⟨hcfg, hlen, hbytes, hnibs⟩ := h
  have hcount : t.count = s.count := congrArg BitVec.toNat hlen
  rcases s.packBody_cases zs with ⟨hodd, e⟩ | ⟨heven, hrange, e⟩ | ⟨heven, hfits, e⟩ <;> rw [e]
  · rw [t.packBody_odd zs (by rw [hcount, hodd])]
    exact ⟨⟨hcfg, hlen, hbytes, hnibs⟩, rfl⟩
  · rw [t.packBody_range zs (by rw [hcount, heven]) (by rwa [hcfg, hcount])]
    exact ⟨⟨hcfg, hlen, hbytes, hnibs⟩, rfl⟩
  · have hpacked : t.packedByte = s.packedByte := funext fun j => State.packedByte_congr hlen fun _ => by
      rw [State.nibCell_eq, State.nibCell_eq, State.nibCell_eq, State.nibCell_eq, hnibs]
      exact ⟨rfl, rfl⟩
    rw [t.packBody_ok zs (by rw [hcount, heven]) (by rwa [hcfg, hcount]), hcfg, hpacked, hnibs, hcount]
    exact ⟨⟨hcfg, hlen, rfl, rfl⟩, rfl⟩

/-- As for PACK, with the one check of UNPACK. -/
theorem State.unpackBody_congr (h : s.sameOperands t) (zs : Bool) :
    (s.unpackBody zs).sameOperands (t.unpackBody zs) ∧ (t.unpackBody zs).olen = (s.unpackBody zs).olen := by
  obtain ⟨hcfg, hlen, hbytes, hnibs⟩ := h
  have hcount : t.count = s.count := congrArg BitVec.toNat hlen
  rcases s.unpackBody_cases zs with ⟨hrange, e⟩ | ⟨hfits, e⟩ <;> rw [e]
  · rw [t.unpackBody_range zs (by rwa [hcfg, hcount])]
    exact ⟨⟨hcfg, hlen, hbytes, hnibs⟩, rfl⟩
  · have hunpacked : t.unpackedNibble = s.unpackedNibble := funext fun k => State.unpackedNibble_congr hlen fun _ => by
      rw [State.byteCell_eq, State.byteCell_eq, hbytes]
    rw [t.unpackBody_ok zs (by rwa [hcfg, hcount]), hcfg, hunpacked, hbytes, hcount]
    exact ⟨⟨hcfg, hlen, rfl, rfl⟩, rfl⟩

/-- Only NOP leaves an OLEN that a command before it wrote. -/
theorem State.perform_congr (h : s.sameOperands t) (k : Command) :
    (s.perform k).sameOperands (t.perform k) ∧
      ((∃ zs, k = .nop zs) ∨ (t.perform k).olen = (s.perform k).olen) := by
  cases k with
  | nop zs => exact ⟨h, .inl ⟨zs, rfl⟩⟩
  | clear zs =>
    obtain ⟨hcfg, _⟩ := h
    exact ⟨⟨hcfg, rfl, rfl, rfl⟩, .inr rfl⟩
  | pack zs => exact (State.packBody_congr h zs).imp id .inr
  | unpack zs => exact (State.unpackBody_congr h zs).imp id .inr

/-- The bytes of NOP are 0x00 and 0x04. -/
theorem encodeCommand_nop_cases (zs : Bool) : encodeCommand (.nop zs) = 0x00 ∨ encodeCommand (.nop zs) = 0x04 := by
  rw [encodeCommand_nop]
  cases zs
  · exact .inl rfl
  · exact .inr rfl

theorem State.writeCmd_congr (h : s.sameOperands t) (c : Byte) :
    (s.writeCmd c).sameOperands (t.writeCmd c) ∧
      (c ≠ 0x00 ∧ c ≠ 0x04 → (t.writeCmd c).olen = (s.writeCmd c).olen) := by
  rcases s.writeCmd_cases c with ⟨hrsv, e⟩ | ⟨k, rfl, e⟩ <;> rw [e]
  · rw [t.writeCmd_illegal hrsv]
    exact ⟨h, fun _ => rfl⟩
  · rw [t.writeCmd_encodeCommand]
    have hissue : (s.issue (encodeCommand k)).sameOperands (t.issue (encodeCommand k)) := h
    obtain ⟨hsame, ⟨zs, rfl⟩ | holen⟩ := State.perform_congr hissue k
    · exact ⟨hsame, fun hc => absurd (encodeCommand_nop_cases zs) (not_or.mpr hc)⟩
    · exact ⟨hsame, fun _ => holen⟩

/-- NOP keeps OLEN (42_control_commands.md R110). -/
theorem State.writeCmd_olen_of_nop {c : Byte} (hc : c = 0x00 ∨ c = 0x04) (s : State) :
    (s.writeCmd c).olen = s.olen := by
  have hnop : ∀ zs, (s.writeCmd (encodeCommand (.nop zs))).olen = s.olen := fun zs => by
    rw [s.writeCmd_encodeCommand]
    rfl
  rcases hc with rfl | rfl
  · exact hnop false
  · exact hnop true

end Sys2Proof.Machine

namespace Sys2Proof.Proofs

open Sys2Proof.Machine

/-- Settles O29 (60_exceptions.md R126): STATUS, and the code with it, outlasts every step but a reset and a CMD write;
a failed command leaves what its checks read, so it fails them again. -/
theorem reissuedFailedCommandFailsAgain : Obligations.ReissuedFailedCommandFailsAgain := by
  refine ⟨fun s t h hchange => ?_, fun s t c h herr => ?_⟩
  · rcases step_status_olen_or_command h with ⟨hstatus, _⟩ | hcommand
    · exact absurd (State.ecode_of_status hstatus) hchange
    · exact hcommand
  · have ht : (s.writeCmd c).complete none = t := Host.Outcome.next.inj ((exec_wr_cmdAddr s c).symm.trans h)
    have hfails : (s.writeCmd c).ecode ≠ .none := by rwa [← ht, State.complete_ecode] at herr
    obtain rfl := Host.Outcome.next.inj ((exec_wr_cmdAddr_of_error hfails).symm.trans h)
    exact ⟨_, exec_wr_cmdAddr_afterError hfails, rfl, rfl, rfl, rfl, rfl, rfl, rfl, rfl, rfl⟩

/-- Settles O30 (10_state.md section 4): a CMD write stores its byte, sets DONE and decides the rest by what it reads;
only NOP keeps OLEN. -/
theorem commandIgnoresCmdAndStatus : Obligations.CommandIgnoresCmdAndStatus := by
  intro s s' c hcfg hlen hbytes hnibs
  obtain ⟨_, hcmd, hdone, _⟩ := s.writeCmd_frame c
  obtain ⟨_, hcmd', hdone', _⟩ := s'.writeCmd_frame c
  obtain ⟨⟨_, hlen', hbytes', hnibs'⟩, holen⟩ := State.writeCmd_congr ⟨hcfg, hlen, hbytes, hnibs⟩ c
  exact ⟨_, _, exec_wr_cmdAddr s c, exec_wr_cmdAddr s' c, hcmd'.trans hcmd.symm, hlen', hdone'.trans hdone.symm,
    State.writeCmd_ecode_congr hcfg hlen c, hbytes', hnibs', holen,
    fun hc => ⟨s.writeCmd_olen_of_nop hc, s'.writeCmd_olen_of_nop hc⟩⟩

end Sys2Proof.Proofs
end

section
/-! PROOFS. The family of the conversions: O35 (round trips), O36 (what the result depends on), O37 (lanes), O40 (the
result on the bus), O38 (length zero), O39 (the packed byte), O43 (NOP and CLEAR with ZS) and O44 (small
configurations), with the conversion of one lane. -/

namespace Sys2Proof.Machine

variable {s t : State}

/-! ### The pure conversions are inverse to each other (41_nibble_packing.md R96) -/

theorem exists_packSeq_of_even :
    ∀ l : List Nibble, l.length % 2 = 0 → ∃ b, packSeq l = some b ∧ unpackSeq b = l
  | [], _ => ⟨[], rfl, rfl⟩
  | [_], hodd => absurd hodd Nat.one_ne_zero
  | h :: l :: rest, heven => by
    have hrest : rest.length % 2 = 0 := (Nat.add_mod_right rest.length 2).symm.trans heven
    obtain ⟨b, hpack, hunpack⟩ := exists_packSeq_of_even rest hrest
    refine ⟨packByte h l :: b, ?_, ?_⟩
    · rw [packSeq_pair, hpack, Option.map_some]
    · rw [unpackSeq_cons, hunpack, highNibble_packByte, lowNibble_packByte]

theorem packSeq_unpackSeq (b : List Byte) : packSeq (unpackSeq b) = some b := by
  induction b with
  | nil => rfl
  | cons b rest ih => rw [unpackSeq_cons, packSeq_pair, ih, Option.map_some, packByte_halves]

/-! ### The packed byte (41_nibble_packing.md R99) -/

/-- The high nibble fills the upper half and the low nibble the lower. -/
theorem toNat_packByte (h l : Nibble) : (packByte h l).toNat = 16 * h.toNat + l.toNat := by
  rw [packByte_eq_append, BitVec.toNat_append, Nat.shiftLeft_eq, Nat.mul_comm,
    ← Nat.two_pow_add_eq_or_of_lt l.isLt]

theorem zext8_shiftLeft_and_zext8 (h l : Nibble) : (zext8 h <<< 4) &&& zext8 l = 0 := by
  revert h l
  decide

/-! ### The conversion of one lane (41_nibble_packing.md R100) -/

theorem State.packedByte_eq (s : State) (i : Nat) :
    s.packedByte i = if i < s.count / 2 then s.nibCell (2 * i) ++ s.nibCell (2 * i + 1) else 0x00 := by
  rw [State.packedByte, packByte_eq_append]

theorem State.unpackedNibble_even (s : State) (i : Nat) :
    s.unpackedNibble (2 * i) = if i < s.count then highNibble (s.byteCell i) else 0 := by
  split_ifs with hi
  · exact s.unpackedNibble_high hi
  · exact s.unpackedNibble_fill (by omega)

theorem State.unpackedNibble_odd (s : State) (i : Nat) :
    s.unpackedNibble (2 * i + 1) = if i < s.count then lowNibble (s.byteCell i) else 0 := by
  split_ifs with hi
  · exact s.unpackedNibble_low hi
  · exact s.unpackedNibble_fill (by omega)

theorem State.count_congr (h : t.len = s.len) : t.count = s.count :=
  congrArg BitVec.toNat h

/-! ### One conversion after the other (41_nibble_packing.md R96) -/

@[simp] theorem State.afterPack_ecode (s : State) (zs : Bool) : (s.afterPack zs).ecode = .none := rfl

/-- The state after a write of `n` to LEN (`exec_wr_lenAddr_ofNat`). -/
def State.afterLen (n : Nat) (s : State) : State := (s.setLen (BitVec.ofNat 8 n)).complete none

theorem exec_wr_lenAddr_ofNat (s : State) (n : Nat) :
    exec (.wr lenAddr (BitVec.ofNat 8 n)) s = .next (s.afterLen n) := exec_wr_lenAddr s _

theorem State.afterLen_count (s : State) {n : Nat} (hn : n < 256) : (s.afterLen n).count = n := by
  rw [State.afterLen, State.complete_count, State.setLen_count, BitVec.toNat_ofNat, Nat.mod_eq_of_lt hn]

/-- The nibbles of a byte that PACK made are the two it was made of. -/
theorem State.unpackedNibble_of_packed {k : Nat} (hcells : ∀ i, t.byteCell i = s.packedByte i)
    (hcount : t.count = s.count / 2) (hk : k / 2 < s.count / 2) : t.unpackedNibble k = s.nibCell k := by
  have hi : k / 2 < t.count := hcount ▸ hk
  rcases Nat.even_or_odd' k with ⟨i, rfl | rfl⟩
  · rw [Nat.mul_div_cancel_left i Nat.two_pos] at hk hi
    rw [t.unpackedNibble_high hi, hcells, s.packedByte_lane hk, highNibble_packByte]
  · rw [Nat.mul_add_div Nat.two_pos, Nat.add_zero] at hk hi
    rw [t.unpackedNibble_low hi, hcells, s.packedByte_lane hk, lowNibble_packByte]

/-- The byte of the two nibbles that UNPACK made is the one they were made of. -/
theorem State.packedByte_of_unpacked {j : Nat} (hcells : ∀ k, t.nibCell k = s.unpackedNibble k)
    (hcount : t.count = 2 * s.count) (hj : j < s.count) : t.packedByte j = s.byteCell j := by
  rw [t.packedByte_lane (by omega), hcells, hcells, s.unpackedNibble_high hj, s.unpackedNibble_low hj,
    packByte_halves]

theorem State.count_lt (s : State) : s.count < 256 := s.len.isLt

/-- UNPACK of what PACK left, with LEN set to the count of PACK's result. -/
theorem exec_unpack_afterPack (zs zs' : Bool) (heven : s.count % 2 = 0) (hfits : s.count ≤ s.cfg.nmax) :
    exec (.unpack zs') ((s.afterPack zs).afterLen (s.count / 2)) =
        .next (((s.afterPack zs).afterLen (s.count / 2)).afterUnpack zs') ∧
      ∀ k, k < s.count → (((s.afterPack zs).afterLen (s.count / 2)).afterUnpack zs').nibCell k = s.nibCell k := by
  have hcount : ((s.afterPack zs).afterLen (s.count / 2)).count = s.count / 2 :=
    State.afterLen_count _ (by have := s.count_lt; omega)
  have hfits' : ((s.afterPack zs).afterLen (s.count / 2)).count ≤ ((s.afterPack zs).afterLen (s.count / 2)).cfg.bmax :=
    hcount.trans_le (Nat.div_le_of_le_mul hfits)
  refine ⟨exec_unpack_of_fits zs' hfits', fun k hk => ?_⟩
  rw [State.afterUnpack_nibCell zs' hfits']
  exact State.unpackedNibble_of_packed (State.afterPack_byteCell zs hfits) hcount (by omega)

/-- PACK of what UNPACK left, with LEN set to the count of UNPACK's result. -/
theorem exec_pack_afterUnpack (zs zs' : Bool) (hwf : s.cfg.wf) (hfits : s.count ≤ s.cfg.bmax) :
    exec (.pack zs') ((s.afterUnpack zs).afterLen (2 * s.count)) =
        .next (((s.afterUnpack zs).afterLen (2 * s.count)).afterPack zs') ∧
      ∀ j, j < s.count → (((s.afterUnpack zs).afterLen (2 * s.count)).afterPack zs').byteCell j = s.byteCell j := by
  obtain ⟨_, hle⟩ := hwf
  have hcount : ((s.afterUnpack zs).afterLen (2 * s.count)).count = 2 * s.count :=
    State.afterLen_count _ (by omega)
  have heven : ((s.afterUnpack zs).afterLen (2 * s.count)).count % 2 = 0 := by rw [hcount, Nat.mul_mod_right]
  have hfits' : ((s.afterUnpack zs).afterLen (2 * s.count)).count ≤
      ((s.afterUnpack zs).afterLen (2 * s.count)).cfg.nmax :=
    hcount.trans_le (Nat.mul_le_mul_left 2 hfits)
  refine ⟨exec_pack_of_fits zs' heven hfits', fun j hj => ?_⟩
  rw [State.afterPack_byteCell zs' hfits']
  exact State.packedByte_of_unpacked (State.afterUnpack_nibCell zs hfits) hcount hj

/-! ### The result on the bus (20_memory.md R57) -/

/-- A count fits OLEN's eight bits because LEN does. -/
theorem State.afterPack_olen_toNat (s : State) (zs : Bool) : (s.afterPack zs).olen.toNat = s.count / 2 := by
  have hlen : s.count < 2 ^ 8 := s.len.isLt
  rw [State.afterPack_olen, BitVec.toNat_ofNat, Nat.mod_eq_of_lt (by omega)]

theorem toNat_zext8 (n : Nibble) : (zext8 n).toNat = n.toNat :=
  BitVec.toNat_setWidth_of_le (by decide)

theorem zext8_highNibble (b : Byte) : zext8 (highNibble b) = b >>> 4 := by
  apply BitVec.eq_of_toNat_eq
  rw [toNat_zext8, highNibble, BitVec.extractLsb'_toNat, BitVec.toNat_ushiftRight, Nat.shiftRight_eq_div_pow]
  omega

theorem zext8_lowNibble (b : Byte) : zext8 (lowNibble b) = b &&& 0x0F := by
  apply BitVec.eq_of_toNat_eq
  have hmask : b.toNat &&& (0x0F : Byte).toNat = b.toNat % 2 ^ 4 := Nat.and_two_pow_sub_one_eq_mod b.toNat 4
  rw [toNat_zext8, lowNibble, BitVec.extractLsb'_toNat, BitVec.toNat_and, hmask, Nat.shiftRight_zero]

end Sys2Proof.Machine

namespace Sys2Proof.Proofs

open Sys2Proof.Machine

/-- Settles O35 (41_nibble_packing.md R96): the count of the first result passes the second command's check, and each
lane comes back. -/
theorem packAndUnpackRoundTrip : Obligations.PackAndUnpackRoundTrip := by
  refine ⟨exists_packSeq_of_even, packSeq_unpackSeq, ?_, ?_⟩
  · rintro s _ zs zs' _ rfl heven hfits
    obtain ⟨hunpack, hcells⟩ := exec_unpack_afterPack zs zs' heven hfits
    exact ⟨_, _, _, exec_pack_of_fits zs heven hfits, s.afterPack_ecode zs, exec_wr_lenAddr_ofNat _ _, hunpack,
      State.afterUnpack_ecode _ zs', hcells⟩
  · rintro s _ zs zs' hwf rfl hfits
    obtain ⟨hpack, hcells⟩ := exec_pack_afterUnpack zs zs' hwf hfits
    exact ⟨_, _, _, exec_unpack_of_fits zs hfits, s.afterUnpack_ecode zs, exec_wr_lenAddr_ofNat _ _, hpack,
      State.afterPack_ecode _ zs', hcells⟩

/-- Settles O36 (41_nibble_packing.md R97): the whole destination is written, each cell from LEN and its own lane. -/
theorem resultDependsOnLenAndSourceAlone : Obligations.ResultDependsOnLenAndSourceAlone := by
  constructor
  · intro s s' zs zs' hcfg hlen heven hfits hcells
    have hcount : s'.count = s.count := State.count_congr hlen
    have hresult : s'.packedByte = s.packedByte := funext fun i => State.packedByte_congr hlen fun hi =>
      have hi' : i < s.len.toNat / 2 := hi
      ⟨hcells _ (by omega), hcells _ (by omega)⟩
    refine ⟨_, _, exec_pack_of_fits zs heven hfits,
      exec_pack_of_fits zs' (by rw [hcount]; exact heven) (by rw [hcount, hcfg]; exact hfits), ?_⟩
    rw [State.afterPack, State.afterPack, hcfg, hresult]
  · intro s s' zs zs' hcfg hlen hfits hcells
    have hcount : s'.count = s.count := State.count_congr hlen
    have hresult : s'.unpackedNibble = s.unpackedNibble := funext fun k =>
      State.unpackedNibble_congr hlen fun hk => hcells _ hk
    refine ⟨_, _, exec_unpack_of_fits zs hfits,
      exec_unpack_of_fits zs' (by rw [hcount, hcfg]; exact hfits), ?_⟩
    rw [State.afterUnpack, State.afterUnpack, hcfg, hresult]

/-- Settles O37 (41_nibble_packing.md R100): a cell of the destination is the conversion of its own lane, or
the fill. -/
theorem lanesDoNotInteract : Obligations.LanesDoNotInteract := by
  constructor
  · intro s s' zs zs' i hcfg hlen heven hfits hhigh hlow
    have hcount : s'.count = s.count := State.count_congr hlen
    have hfits' : s'.count ≤ s'.cfg.nmax := by rw [hcount, hcfg]; exact hfits
    refine ⟨_, _, exec_pack_of_fits zs heven hfits, exec_pack_of_fits zs' (by rw [hcount]; exact heven) hfits', ?_⟩
    rw [State.afterPack_byteCell zs hfits, State.afterPack_byteCell zs' hfits']
    exact ⟨State.packedByte_congr hlen fun _ => ⟨hhigh, hlow⟩, s.packedByte_eq i⟩
  · intro s s' zs zs' i hcfg hlen hfits hbyte
    have hcount : s'.count = s.count := State.count_congr hlen
    have hfits' : s'.count ≤ s'.cfg.bmax := by rw [hcount, hcfg]; exact hfits
    refine ⟨_, _, exec_unpack_of_fits zs hfits, exec_unpack_of_fits zs' hfits', ?_⟩
    rw [State.afterUnpack_nibCell zs hfits, State.afterUnpack_nibCell zs' hfits', State.afterUnpack_nibCell zs hfits,
      State.afterUnpack_nibCell zs' hfits', s.unpackedNibble_even, s.unpackedNibble_odd, s'.unpackedNibble_even,
      s'.unpackedNibble_odd, hcount, hbyte]
    exact ⟨rfl, rfl, rfl, rfl⟩

/-- Settles O40 (20_memory.md R57): the windows show the destination's cells, and OLEN is the count of the result. -/
theorem busReadsTheResultAfterAConversion : Obligations.BusReadsTheResultAfterAConversion := by
  constructor
  · intro s zs hwf heven hfits
    refine ⟨s.afterPack zs, exec_pack_of_fits zs heven hfits, fun j hj => ?_⟩
    rw [(s.afterPack zs).busRead_byteAddr hwf hj, State.afterPack_byteCell zs hfits, s.packedByte_eq,
      s.afterPack_olen_toNat]
  · intro s zs hwf hfits
    refine ⟨s.afterUnpack zs, exec_unpack_of_fits zs hfits, fun k hk => ?_⟩
    rw [(s.afterUnpack zs).busRead_nibAddr hwf hk, State.afterUnpack_nibCell zs hfits,
      State.afterUnpack_olen_toNat zs hwf hfits, State.unpackedNibble, apply_ite zext8, apply_ite zext8, zext8_highNibble, zext8_lowNibble]
    rfl

/-- Settles O38 (41_nibble_packing.md R98): 0 is even and within both capacities, and every cell is fill. -/
theorem lengthZeroSucceedsWithNothing : Obligations.LengthZeroSucceedsWithNothing := by
  intro s zs hlen
  have hcount : s.count = 0 := congrArg BitVec.toNat hlen
  have hnmax : s.count ≤ s.cfg.nmax := hcount ▸ Nat.zero_le _
  have hbmax : s.count ≤ s.cfg.bmax := hcount ▸ Nat.zero_le _
  refine ⟨⟨_, exec_pack_of_fits zs (by rw [hcount]) hnmax, rfl, ?_, fun j => ?_⟩,
    _, exec_unpack_of_fits zs hbmax, rfl, ?_, fun k => ?_⟩
  · rw [State.afterPack_olen, hcount, Nat.zero_div]
    rfl
  · rw [State.afterPack_byteCell zs hnmax, s.packedByte_fill (by omega)]
  · rw [State.afterUnpack_olen, hcount, Nat.mul_zero]
    rfl
  · rw [State.afterUnpack_nibCell zs hbmax, s.unpackedNibble_fill (by omega)]

/-- Settles O39 (41_nibble_packing.md R99): the two halves of the byte are apart, the checks bound every index, and the
invariant bounds OLEN. -/
theorem packedByteIsExact : Obligations.PackedByteIsExact := by
  refine ⟨fun h l => ?_, packByte_halves, fun s heven hfits => ?_, fun s hfits i hi => ?_, fun s hinv => ?_⟩
  · exact ⟨toNat_packByte h l, zext8_shiftLeft_and_zext8 h l, highNibble_packByte h l, lowNibble_packByte h l⟩
  · rw [Config.nmax] at hfits ⊢
    exact ⟨by omega, by omega, fun i hi => by omega⟩
  · rw [Config.nmax]
    omega
  · obtain ⟨⟨⟨_, hle⟩, _⟩, _, _, holen, _⟩ := hinv
    exact ⟨holen, Nat.mul_le_mul_left 2 hle⟩

/-- Settles O43 (30_encoding.md R63): ZS is in the byte that CMD keeps and nowhere else. -/
theorem nopAndClearIgnoreZs : Obligations.NopAndClearIgnoreZs := fun s =>
  ⟨⟨_, _, exec_nop_eq_afterNop s false, exec_nop_eq_afterNop s true, rfl⟩,
    _, _, exec_clear_eq_afterClear s false, exec_clear_eq_afterClear s true, rfl⟩

/-- Settles O44 (00_scope.md section 6): 32 is even and above NMAX, 16 above BMAX. -/
theorem smallInstanceCannotHoldAPlaintextBlock : Obligations.SmallInstanceCannotHoldAPlaintextBlock := by
  refine fun s zs hsmall => ⟨fun hlen => ?_, fun hlen => ?_⟩
  · have hcount : s.count = 32 := congrArg BitVec.toNat hlen
    have hrange : s.cfg.nmax < s.count := by rw [Config.nmax]; omega
    exact ⟨_, exec_pack_of_range zs (by rw [hcount]) hrange, s.afterError_ecode _ _, rfl⟩
  · have hcount : s.count = 16 := congrArg BitVec.toNat hlen
    exact ⟨_, exec_unpack_of_range zs (hcount ▸ hsmall), s.afterError_ecode _ _, rfl⟩

end Sys2Proof.Proofs
end

section
/-! PROOFS. The family of the pseudo-operations: O45 (conversions) and O46 (loads), with the step of one written script
line and a run of writes to consecutive cells. -/

namespace Sys2Proof.Machine

variable {s : State}

/-! ### One line of a script (30_encoding.md R70) -/

/-- The step of a presented write line is that write. -/
theorem step_of_presented_wr {p : Place} {d : Byte} {ls : List ScriptLine} {rest : List HostEvent}
    (hp : s.pending = presented (.wr p d :: ls) ++ rest) : step s = exec (.wr p.addr d) s := by
  have haccess : s.pending = .access (busWord (.wr p.addr d)) :: (presented ls ++ rest) := hp
  rw [step_of_access haccess]
  exact congrArg (fun i => exec i s) (decodeBus_write p.addr d)

/-- One command byte, presented alone. -/
theorem runSteps_command {c : Byte} {rest : List HostEvent} (hp : s.pending = presented [.wr .cmd c] ++ rest) :
    runSteps 1 s = exec (.wr cmdAddr c) s := by
  rw [runSteps_one, step_of_presented_wr hp, Place.addr]

/-- LEN and then one command byte (30_encoding.md R71). -/
theorem runSteps_len_command {n c : Byte} {rest : List HostEvent}
    (hp : s.pending = presented [.wr .len n, .wr .cmd c] ++ rest) :
    runSteps 2 s = exec (.wr cmdAddr c) { s with len := n, rdata := none, pending := s.pending.tail } := by
  have hlen : step s = .next ((s.setLen n).complete none) :=
    (step_of_presented_wr hp).trans (exec_wr_lenAddr s n)
  have hnext : ((s.setLen n).complete none).pending = presented [.wr .cmd c] ++ rest := by
    rw [State.complete_pending, State.setLen_pending, hp]
    rfl
  rw [runSteps_succ 1 hlen, runSteps_command hnext]
  rfl

theorem expand_pack (n : Byte) (zs : Bool) :
    (if zs then Pseudo.packZs n else .pack n).expand = [.wr .len n, .wr .cmd (if zs then 0x05 else 0x01)] := by
  cases zs <;> rfl

theorem expand_unpack (n : Byte) (zs : Bool) :
    (if zs then Pseudo.unpackZs n else .unpack n).expand = [.wr .len n, .wr .cmd (if zs then 0x06 else 0x02)] := by
  cases zs <;> rfl

/-! ### Consecutive cells of a buffer -/

/-- The values written one after another to cell `a` and the cells after it. -/
def Memory.writeFrom {w : Nat} : Memory w → Nat → List (BitVec w) → Memory w
  | m, _, [] => m
  | m, a, v :: vs => Memory.writeFrom (m.write a v) (a + 1) vs

section
variable {w : Nat}

theorem Memory.writeFrom_cons (m : Memory w) (a : Nat) (v : BitVec w) (vs : List (BitVec w)) :
    m.writeFrom a (v :: vs) = (m.write a v).writeFrom (a + 1) vs := rfl

theorem Memory.read_writeFrom_outside (m : Memory w) {a b : Nat} (vs : List (BitVec w))
    (h : b < a ∨ a + vs.length ≤ b) : (m.writeFrom a vs).read b = m.read b := by
  induction vs generalizing m a with
  | nil => rfl
  | cons v vs ih =>
    rw [List.length_cons] at h
    rw [Memory.writeFrom_cons, ih _ (by omega), Memory.read_write_other m v (by omega)]

theorem Memory.read_writeFrom_inside (m : Memory w) {a i : Nat} {v : BitVec w} {vs : List (BitVec w)}
    (h : vs[i]? = some v) : (m.writeFrom a vs).read (a + i) = v := by
  induction vs generalizing m a i with
  | nil => cases h
  | cons u vs ih =>
    rw [Memory.writeFrom_cons]
    cases i with
    | zero =>
      obtain rfl : u = v := Option.some.inj h
      exact (Memory.read_writeFrom_outside _ vs (.inl (Nat.lt_add_one a))).trans (Memory.read_write_same m a u)
    | succ i =>
      rw [← ih (m.write a u) (a := a + 1) (i := i) h, Nat.add_right_comm, Nat.add_assoc]

end

/-! ### A run of writes to consecutive cells (30_encoding.md R71) -/

/-- A state as its other elements leave it, with one buffer, the returned byte and the presented events as given. -/
abbrev BufferView (w : Nat) := Memory w → Option Byte → List HostEvent → State

/-- The states of a view present its events, and a write to a cell below `cap` stores its value in the buffer and
completes. -/
structure StoresCells {w : Nat} (cap : Nat) (place : Nat → Place) (value : Byte → BitVec w) (view : BufferView w) :
    Prop where
  pending : ∀ m r p, (view m r p).pending = p
  exec_wr : ∀ m r p k v, k < cap →
    exec (.wr (place k).addr v) (view m r p) = .next (view (m.write k (value v)) none p.tail)

section
variable {w cap : Nat} {place : Nat → Place} {value : Byte → BitVec w} {view : BufferView w}

/-- The step of a load's first line. -/
theorem StoresCells.step_loadLines (h : StoresCells cap place value view) (m : Memory w) (r : Option Byte) {k : Nat}
    (hk : k < cap) (v : Byte) (vs : List Byte) (rest : List HostEvent) :
    step (view m r (presented (loadLines place k (v :: vs)) ++ rest)) =
      .next (view (m.write k (value v)) none (presented (loadLines place (k + 1) vs) ++ rest)) := by
  have hfirst : (view m r (presented (loadLines place k (v :: vs)) ++ rest)).pending =
      presented (.wr (place k) v :: loadLines place (k + 1) vs) ++ rest := h.pending ..
  exact (step_of_presented_wr hfirst).trans (h.exec_wr _ _ _ k v hk)

/-- A load runs to the buffer with its values stored. -/
theorem StoresCells.runSteps_loadLines (h : StoresCells cap place value view) (rest : List HostEvent) (v : Byte)
    (vs : List Byte) (m : Memory w) (r : Option Byte) (k : Nat) (hfits : k + (v :: vs).length ≤ cap) :
    runSteps (v :: vs).length (view m r (presented (loadLines place k (v :: vs)) ++ rest)) =
      .next (view (m.writeFrom k ((v :: vs).map value)) none rest) := by
  induction vs generalizing v m r k with
  | nil => exact runSteps_succ 0 (h.step_loadLines m r hfits v [] rest)
  | cons u vs ih =>
    rw [List.length_cons] at hfits ⊢
    rw [runSteps_succ _ (h.step_loadLines m r (by omega) v (u :: vs) rest), ih u _ none (k + 1) (by omega)]
    rfl

end

/-- The view of a state's nibble buffer. -/
def State.nibView (s : State) : BufferView 4 := fun m r p => { s with nibBuf := m, rdata := r, pending := p }

/-- The view of a state's byte buffer. -/
def State.byteView (s : State) : BufferView 8 := fun m r p => { s with byteBuf := m, rdata := r, pending := p }

theorem State.nibView_storesCells (hwf : s.cfg.wf) : StoresCells s.cfg.nmax .nib lowNibble s.nibView where
  pending _ _ _ := rfl
  exec_wr m r p _ v hk := exec_wr_nibAddr (s := s.nibView m r p) hwf hk v

theorem State.byteView_storesCells (hwf : s.cfg.wf) : StoresCells s.cfg.bmax .byte id s.byteView where
  pending _ _ _ := rfl
  exec_wr m r p _ v hk := exec_wr_byteAddr (s := s.byteView m r p) hwf hk v

theorem runSteps_loadN (hwf : s.cfg.wf) {k : Nat} {vs : List Byte} {rest : List HostEvent} (hne : vs ≠ [])
    (hfits : k + vs.length ≤ s.cfg.nmax) (hp : s.pending = presented (loadLines .nib k vs) ++ rest) :
    runSteps vs.length s = .next (s.nibView (s.nibBuf.writeFrom k (vs.map lowNibble)) none rest) := by
  obtain ⟨v, vs, rfl⟩ := List.exists_cons_of_ne_nil hne
  have hrun := (State.nibView_storesCells hwf).runSteps_loadLines rest v vs s.nibBuf s.rdata k hfits
  rwa [← hp] at hrun

theorem runSteps_loadB (hwf : s.cfg.wf) {j : Nat} {bs : List Byte} {rest : List HostEvent} (hne : bs ≠ [])
    (hfits : j + bs.length ≤ s.cfg.bmax) (hp : s.pending = presented (loadLines .byte j bs) ++ rest) :
    runSteps bs.length s = .next (s.byteView (s.byteBuf.writeFrom j bs) none rest) := by
  obtain ⟨b, bs, rfl⟩ := List.exists_cons_of_ne_nil hne
  have hrun := (State.byteView_storesCells hwf).runSteps_loadLines rest b bs s.byteBuf s.rdata j hfits
  rwa [← hp, List.map_id] at hrun

end Sys2Proof.Machine

namespace Sys2Proof.Proofs

open Sys2Proof.Machine

/-- Settles O45 (30_encoding.md R71): the expansion is a write to LEN and the write to CMD that the command is. -/
theorem pseudoConversionsSetLenAndConvert : Obligations.PseudoConversionsSetLenAndConvert := by
  refine fun s n zs rest => ⟨fun hp => ?_, fun hp => ?_, fun hp => ?_, fun hp => ?_⟩
  · rw [expand_pack] at hp
    exact (runSteps_len_command hp).trans (exec_wr_pack _ zs)
  · rw [expand_unpack] at hp
    exact (runSteps_len_command hp).trans (exec_wr_unpack _ zs)
  · exact (runSteps_command hp).trans (exec_wr_nop s false)
  · exact (runSteps_command hp).trans (exec_wr_clear s false)

/-- Settles O46 (30_encoding.md R71): the values go one after another to cells that exist, and a later value's cell is
never an earlier one's. -/
theorem pseudoLoadsFillConsecutiveCells : Obligations.PseudoLoadsFillConsecutiveCells := by
  constructor
  · intro s k vs rest hwf hpseudo hp
    obtain ⟨hne, hfits⟩ := of_decide_eq_true hpseudo
    refine ⟨_, runSteps_loadN hwf hne hfits hp, fun i v hv => ?_, fun i hi => ?_, rfl⟩
    · exact Memory.read_writeFrom_inside s.nibBuf (by rw [List.getElem?_map, hv]; rfl)
    · exact Memory.read_writeFrom_outside s.nibBuf _ (by rwa [List.length_map])
  · intro s j bs rest hwf hpseudo hp
    obtain ⟨hne, hfits⟩ := of_decide_eq_true hpseudo
    refine ⟨_, runSteps_loadB hwf hne hfits hp, fun i b hb => ?_, fun i hi => ?_, rfl⟩
    · exact Memory.read_writeFrom_inside s.byteBuf hb
    · exact Memory.read_writeFrom_outside s.byteBuf _ hi

end Sys2Proof.Proofs
end
